-- ==== Sys2Proof/Word.lean ====
section
/-! DEFINITION. The two word types of the block: a byte is 8 bits and a word is 32 bits (rule R7). -/

namespace Sys2Proof

/-- A word of a channel, a descriptor register, the CRC register or a table entry (rules R7, R13). -/
abbrev Word := BitVec 32

/-- One input byte (rule R7). -/
abbrev Byte := BitVec 8

end Sys2Proof
end

