-- ==== Sys2Proof/Config.lean ====
section
/-! DEFINITION. The parameters of the block (rule R6) and the values the spec leaves open. An open value
is an `opaque` constant: nothing in Lean can say which value it is. -/

namespace Sys2Proof.Config

/-- `MAXW`, the widest CRC register in bits, which is also the largest bit count of `reflect` (rules R6, R67). -/
def maxWidth : Nat := 32

/-- `TSIZE`, entries of the lookup table (rule R6). -/
def tableSize : Nat := 256

/-- `STEPS`, shift-and-XOR iterations per input byte (rule R6). -/
def stepsPerByte : Nat := 8

/-- `MAXLEN`, most bytes in one `UPDATE` (rule R6). -/
def maxChunk : Nat := 65535

/-- `WIDTH` after a hard reset: unspecified (rule R29). DESIGN CHOICE, log entry 1. -/
opaque resetWidth : BitVec 8
/-- `POLY` after a hard reset: unspecified (rule R29). DESIGN CHOICE, log entry 1. -/
opaque resetPoly : Word
/-- `INITV` after a hard reset: unspecified (rule R29). DESIGN CHOICE, log entry 1. -/
opaque resetInitv : Word
/-- `XOROUT` after a hard reset: unspecified (rule R29). DESIGN CHOICE, log entry 1. -/
opaque resetXorout : Word
/-- `REFIN` after a hard reset: unspecified (rule R29). DESIGN CHOICE, log entry 1. -/
opaque resetRefin : Bool
/-- `REFOUT` after a hard reset: unspecified (rule R29). DESIGN CHOICE, log entry 1. -/
opaque resetRefout : Bool
/-- `CHECK` after a hard reset: unspecified (rule R29). DESIGN CHOICE, log entry 1. -/
opaque resetCheck : Word
/-- `MODE` after a hard reset: unspecified (rule R29). DESIGN CHOICE, log entry 1. -/
opaque resetMode : Bool
/-- `REG` after a hard reset: unspecified (rule R29). DESIGN CHOICE, log entry 1. -/
opaque resetReg : Word

/-- Response words the block can hold untaken and still execute a command: not specified (rule R124). DESIGN
CHOICE, log entry 6. -/
opaque responseDepth : Nat
/-- Command words the block takes ahead while it is stalled: not specified (rule R124). DESIGN CHOICE, log
entry 6. -/
opaque commandDepth : Nat

/-- `CYCLES_PER_BYTE_TABLE`: `OPEN`, no value, no rule depends on it (rules R6, R127; log entry 10). -/
opaque cyclesPerByteTable : Nat
/-- `CYCLES_PER_BYTE_BITWISE`: `OPEN`, no value, no rule depends on it (rules R6, R127; log entry 10). -/
opaque cyclesPerByteBitwise : Nat
/-- `CYCLES_TABLE_BUILD`: `OPEN`, no value, no rule depends on it (rules R6, R127; log entry 10). -/
opaque cyclesTableBuild : Nat

end Sys2Proof.Config
end

