-- ==== Sys2Proof/Syntax.lean ====
section
/-! DEFINITION. The eight commands of the block as data (rule R46). `LEN` of `UPDATE` is the length of
its byte sequence; no command carries a handle, because the block is the handle (rule R46). -/

namespace Sys2Proof

/-- The abstract commands (rule R46), fields in the rule's order. -/
inductive Instr where
  /-- `INIT`: load a descriptor and start a stream (rule R84). -/
  | init (width : BitVec 8) (refin refout tmode : Bool) (poly initv xorout check : Word)
  /-- `UPDATE`: fold a chunk of bytes into the register (rule R85). -/
  | update (bytes : List Byte)
  /-- `RESET`: restart the stream with the same descriptor (rule R87). -/
  | reset
  /-- `FINALIZE`: return the CRC of the stream so far (rule R91). -/
  | finalize
  /-- `SELFTEST`: check the descriptor against its check value (rule R94). -/
  | selftest
  /-- `REFLECT`: reverse the low `n` bits of a value (rule R69). -/
  | reflect (n : BitVec 6) (value : Word)
  /-- `TBUILD`: build a table and return it (rule R75). -/
  | tbuild (width : BitVec 8) (poly : Word)
  /-- `TREAD`: read one entry of the engine's built table (rule R76). -/
  | tread (index : BitVec 8)
deriving DecidableEq, Repr

end Sys2Proof
end

