-- ==== Sys2Proof/WellFormed.lean ====
section
/-! DEFINITION. Which commands have an encoding: every field of rule R46 is bounded by its type, but for
the chunk of `UPDATE`, whose 16-bit `LEN` allows at most 65535 bytes (rules R6, R49). -/

namespace Sys2Proof

/-- The one check the types do not make (rule R49). -/
def Instr.wellFormed : Instr → Bool
  | .init _ _ _ _ _ _ _ _ => true
  | .update bytes => decide (bytes.length ≤ Config.maxChunk)
  | .reset => true
  | .finalize => true
  | .selftest => true
  | .reflect _ _ => true
  | .tbuild _ _ => true
  | .tread _ => true

/-- A command that has an encoding. -/
abbrev Instr.WellFormed (i : Instr) : Prop := i.wellFormed = true

end Sys2Proof
end

