-- ==== Sys2Proof/Decode.lean ====
section
/-! DEFINITION. Command frames: frame length, decoder, opcode map and encoder (rules R47 to R58, R66). -/

namespace Sys2Proof

/-- `OPC`: bits 31 to 24 of a header word (rule R47). -/
def opcodeOf (h : Word) : BitVec 8 := h.extractLsb' 24 8

/-- `framelen(h)`: the words of the frame a header begins; only `OPC` and `LEN` matter (rule R54). -/
def framelen (h : Word) : Nat :=
  if opcodeOf h = 0x01#8 then 5
  else if opcodeOf h = 0x02#8 then 1 + (((h.extractLsb' 0 16).toNat + 3) >>> 2)
  else if opcodeOf h = 0x06#8 then 2
  else if opcodeOf h = 0x07#8 then 2
  else 1

/-- The reserved field of `len` bits from bit `lo` up is zero (rules R47, R58). -/
def reservedZero (h : Word) (lo len : Nat) : Bool := h.extractLsb' lo len == 0

/-- The four byte lanes of a word, least significant first (rule R35). -/
def wordBytes (w : Word) : List Byte :=
  [w.extractLsb' 0 8, w.extractLsb' 8 8, w.extractLsb' 16 8, w.extractLsb' 24 8]

/-- The chunk of `len` bytes carried by the data words; the unused upper lanes of the last word are
dropped (rules R35, R56). -/
def unpackBytes (data : List Word) (len : Nat) : List Byte := (data.flatMap wordBytes).take len

/-- One word from four byte lanes, least significant first (rule R35). -/
def bytesWord (b0 b1 b2 b3 : Byte) : Word := b3 ++ b2 ++ b1 ++ b0

/-- A chunk packed into data words, pad lanes written as 0 (rules R35, R66). -/
def packBytes : List Byte → List Word
  | [] => []
  | [b0] => [bytesWord b0 0 0 0]
  | [b0, b1] => [bytesWord b0 b1 0 0]
  | [b0, b1, b2] => [bytesWord b0 b1 b2 0]
  | b0 :: b1 :: b2 :: b3 :: rest => bytesWord b0 b1 b2 b3 :: packBytes rest

/-- The command of a whole frame, header and operand words; `none` when the header is illegal
(rules R48 to R53, R56, R58). -/
def decodeFrame (h : Word) (ops : List Word) : Option Instr :=
  if opcodeOf h = 0x01#8 then
    if reservedZero h 19 5 && reservedZero h 8 8 then
      some (.init (h.extractLsb' 0 8) (h.getLsbD 16) (h.getLsbD 17) (h.getLsbD 18)
        (ops.getD 0 0) (ops.getD 1 0) (ops.getD 2 0) (ops.getD 3 0))
    else none
  else if opcodeOf h = 0x02#8 then
    if reservedZero h 16 8 then some (.update (unpackBytes ops (h.extractLsb' 0 16).toNat)) else none
  else if opcodeOf h = 0x03#8 then
    if reservedZero h 0 24 then some .reset else none
  else if opcodeOf h = 0x04#8 then
    if reservedZero h 0 24 then some .finalize else none
  else if opcodeOf h = 0x05#8 then
    if reservedZero h 0 24 then some .selftest else none
  else if opcodeOf h = 0x06#8 then
    if reservedZero h 6 18 then some (.reflect (h.extractLsb' 0 6) (ops.getD 0 0)) else none
  else if opcodeOf h = 0x07#8 then
    if reservedZero h 8 16 then some (.tbuild (h.extractLsb' 0 8) (ops.getD 0 0)) else none
  else if opcodeOf h = 0x08#8 then
    if reservedZero h 8 16 then some (.tread (h.extractLsb' 0 8)) else none
  else none

/-- The two ways a header is illegal, cases (a) and (b) of rule R58. The block does not report which. -/
inductive IllegalReason where
  | unassignedOpcode
  | reservedBitSet
deriving DecidableEq, Repr

/-- Why a header that decodes to no command is illegal (rule R58). -/
def illegalReason (h : Word) : IllegalReason :=
  if 0x01#8 ≤ opcodeOf h ∧ opcodeOf h ≤ 0x08#8 then .reservedBitSet else .unassignedOpcode

/-- What the decoder finds at a frame boundary of the command channel (rule R57). -/
inductive Decoded where
  /-- The channel is empty: there is no header yet. -/
  | idle
  /-- A header whose frame is not complete yet: the decoder waits (rules R57, R125). -/
  | incomplete
  /-- The verdict `Illegal(h)`; the frame's words are consumed (rules R57, R58). -/
  | illegal (header : Word) (why : IllegalReason) (rest : List Word)
  /-- A command, and the words after its frame. -/
  | command (i : Instr) (rest : List Word)
deriving DecidableEq, Repr

/-- The decoder: total on every word sequence, and blind to the state of the block (rule R57). -/
def decode : List Word → Decoded
  | [] => .idle
  | h :: ws =>
    if ws.length < framelen h - 1 then .incomplete
    else match decodeFrame h (ws.take (framelen h - 1)) with
      | some i => .command i (ws.drop (framelen h - 1))
      | none => .illegal h (illegalReason h) (ws.drop (framelen h - 1))

/-- One row of the opcode map: a header `h` selects the row when `h & mask == match` (rule R55). -/
structure OpcodeRow where
  mnemonic : String
  matchBits : Word
  maskBits : Word
deriving DecidableEq, Repr

/-- The opcode map, the rule's table row by row (rule R55). -/
def opcodeMap : List OpcodeRow :=
  [⟨"INIT", 0x01000000#32, 0xFFF8FF00#32⟩,
   ⟨"UPDATE", 0x02000000#32, 0xFFFF0000#32⟩,
   ⟨"RESET", 0x03000000#32, 0xFFFFFFFF#32⟩,
   ⟨"FINALIZE", 0x04000000#32, 0xFFFFFFFF#32⟩,
   ⟨"SELFTEST", 0x05000000#32, 0xFFFFFFFF#32⟩,
   ⟨"REFLECT", 0x06000000#32, 0xFFFFFFC0#32⟩,
   ⟨"TBUILD", 0x07000000#32, 0xFFFFFF00#32⟩,
   ⟨"TREAD", 0x08000000#32, 0xFFFFFF00#32⟩]

/-- Whether a header selects a row of the opcode map (rule R55). -/
def OpcodeRow.selects (r : OpcodeRow) (h : Word) : Bool := h &&& r.maskBits == r.matchBits

/-- The mnemonic of a command (rules R46, R64). -/
def Instr.mnemonic : Instr → String
  | .init _ _ _ _ _ _ _ _ => "INIT"
  | .update _ => "UPDATE"
  | .reset => "RESET"
  | .finalize => "FINALIZE"
  | .selftest => "SELFTEST"
  | .reflect _ _ => "REFLECT"
  | .tbuild _ _ => "TBUILD"
  | .tread _ => "TREAD"

/-- The opcode number of a command (rule R55). -/
def Instr.opcode : Instr → BitVec 8
  | .init _ _ _ _ _ _ _ _ => 0x01#8
  | .update _ => 0x02#8
  | .reset => 0x03#8
  | .finalize => 0x04#8
  | .selftest => 0x05#8
  | .reflect _ _ => 0x06#8
  | .tbuild _ _ => 0x07#8
  | .tread _ => 0x08#8

/-- The header word of a command: each field in its bit range, 0 in every reserved bit (rules R48 to R53,
R66). -/
def encodeHeader : Instr → Word
  | .init width refin refout tmode _ _ _ _ =>
    0x01#8 ++ 0#5 ++ BitVec.ofBool tmode ++ BitVec.ofBool refout ++ BitVec.ofBool refin ++ 0#8 ++ width
  | .update bytes => 0x02#8 ++ 0#8 ++ BitVec.ofNat 16 bytes.length
  | .reset => 0x03#8 ++ 0#24
  | .finalize => 0x04#8 ++ 0#24
  | .selftest => 0x05#8 ++ 0#24
  | .reflect n _ => 0x06#8 ++ 0#18 ++ n
  | .tbuild width _ => 0x07#8 ++ 0#16 ++ width
  | .tread index => 0x08#8 ++ 0#16 ++ index

/-- The operand words of a command (rules R48 to R53, R66). -/
def encodeOperands : Instr → List Word
  | .init _ _ _ _ poly initv xorout check => [poly, initv, xorout, check]
  | .update bytes => packBytes bytes
  | .reset => []
  | .finalize => []
  | .selftest => []
  | .reflect _ value => [value]
  | .tbuild _ poly => [poly]
  | .tread _ => []

/-- The frame of a command (rule R66). -/
def encode (i : Instr) : List Word := encodeHeader i :: encodeOperands i

/-- The frame an opcode-table row stands for: the header is the low 32 bits of `w`, operand word `k` is
bits `32*k + 31` down to `32*k` of `w`, and every bit from `nbits` up is 0. -/
def tableFrame (nbits w : Nat) : List Word :=
  let v := w % 2 ^ nbits
  let h := BitVec.ofNat 32 v
  h :: (List.range (framelen h - 1)).map fun k => BitVec.ofNat 32 (v >>> (32 * (k + 1)))

/-- The command the decoder reads from an opcode-table row's bits, `none` where it refuses. -/
def decodeTableWord (nbits w : Nat) : Option Instr :=
  match decode (tableFrame nbits w) with
  | .command i _ => some i
  | .idle => none
  | .incomplete => none
  | .illegal _ _ _ => none

end Sys2Proof
end

