-- ==== Sys2Proof/Machine/State.lean ====
section
/-! DEFINITION. The whole state of one block (rule R13), the two channels and the reset input as the host
leaves them (rule R30), the state after a hard reset (rule R29), and the reasons a step can stop. -/

namespace Sys2Proof.Machine

/-- The states of the block's state machine (rules R13, R24). -/
inductive Fsm where
  | uninitialized
  | ready
  | accumulating
  | finalized
deriving DecidableEq, Repr

/-- The table memory: index and entry, in one canonical form, indices strictly rising and below 256
(`Memory.wf`). The unit is one entry (rules R10, R33). An unlisted index has no value (log entry 2), so no
listed entry equals what an unlisted one reads as. -/
abbrev Memory := List (Nat × Word)

/-- The state of the block. The first eleven fields are the tuple of rule R13; the last four are the
model's holding of the ports of rule R30 (log entries 3, 6, 7). -/
structure State where
  /-- `FSM` (rule R24). -/
  fsm : Fsm
  /-- `WIDTH` (rule R14). -/
  width : BitVec 8
  /-- `POLY` (rule R15). -/
  poly : Word
  /-- `INITV` (rule R15). -/
  initv : Word
  /-- `XOROUT` (rule R15). -/
  xorout : Word
  /-- `REFIN` (rule R17). -/
  refin : Bool
  /-- `REFOUT` (rule R17). -/
  refout : Bool
  /-- `CHECK` (rule R18). -/
  check : Word
  /-- `MODE`: true for table-driven, false for bitwise (rule R19). -/
  mode : Bool
  /-- `REG` (rule R20). -/
  reg : Word
  /-- `TABLE[0..255]` (rule R22). -/
  table : Memory
  /-- Command words sent and not yet executed, oldest first (rule R31). -/
  cmd : List Word
  /-- Response words produced and not yet taken, oldest first (rule R32). -/
  rsp : List Word
  /-- The level of the hard-reset input (rules R30, R113). -/
  rst : Bool
  /-- The level of the `rsp_ready` input: whether the host is taking response words (rules R30, R124). -/
  rspReady : Bool
deriving DecidableEq, Repr

/-- The state right after a hard reset, `rst` released and the host ready for responses: `FSM` is `Uninitialized` and the channels are
empty; the table is absent; every other element is unspecified, an opaque constant (rules R29, R113; log
entries 1, 2, 6 and 7). -/
def State.reset : State where
  fsm := .uninitialized
  width := Config.resetWidth
  poly := Config.resetPoly
  initv := Config.resetInitv
  xorout := Config.resetXorout
  refin := Config.resetRefin
  refout := Config.resetRefout
  check := Config.resetCheck
  mode := Config.resetMode
  reg := Config.resetReg
  table := []
  cmd := []
  rsp := []
  rst := false
  rspReady := true

/-- The faults of the model. The block's own error statuses are no faults: they are responses, and the
machine goes on (rules R97, R104). -/
inductive Fault where
  /-- A read of a table entry that nothing has written: raised by `UPDATE`, `SELFTEST` and `TREAD` in a
  state that breaks the table invariant of rule R23, so in no state a run from reset reaches. Safe
  (log entry 2). -/
  | tableEntryAbsent
deriving DecidableEq, Repr

/-- The refusals of the model. -/
inductive Refusal where
  /-- An instruction without a meaning yet, by its mnemonic: raised by no instruction of this model. Safe. -/
  | notModelled (mnemonic : String)
  /-- The command channel holds a header and fewer words than its frame needs: raised by `step`, whatever
  the instruction. Rule R125: the block is "stuck, neither faulted nor finished". Safe (log entry 5). -/
  | truncatedFrame
deriving DecidableEq, Repr

/-- What an instruction or a step answers. -/
abbrev Result := Host.Outcome State Fault Refusal

end Sys2Proof.Machine
end

