-- ==== Sys2Proof/Machine/Flags.lean ====
section
/-! DEFINITION. The block has no flags and no condition codes (rule R27). What stands in their place is the
status of a response (rules R60, R62, R97). -/

namespace Sys2Proof.Machine

/-- The four errors a command can report (rule R97). -/
inductive CommandError where
  /-- Illegal `WIDTH` operand of `INIT` or `TBUILD` (rule R98). -/
  | configError
  /-- A command that needs a descriptor, or a built table, without one (rule R99). -/
  | usageError
  /-- Bit count of `REFLECT` above 32 (rule R100). -/
  | rangeError
  /-- Illegal header word (rule R101). -/
  | illegalCommand
deriving DecidableEq, Repr

/-- `STATUS` code; `none` is `OK` (rule R62). -/
def statusCode : Option CommandError → BitVec 4
  | none => 0#4
  | some .configError => 1#4
  | some .usageError => 2#4
  | some .rangeError => 3#4
  | some .illegalCommand => 4#4

/-- A response header: the echoed opcode, zeros, the status (rule R60). -/
def responseHeader (opc : BitVec 8) (e : Option CommandError) : Word :=
  opc ++ 0#20 ++ statusCode e

/-- The result word of `SELFTEST`, 1 for pass and 0 for fail (rule R61). -/
def boolWord (b : Bool) : Word := if b then 1#32 else 0#32

end Sys2Proof.Machine
end

