-- ==== Sys2Proof/Machine/Operands.lean ====
section
/-! DEFINITION. The operands of the commands and the checks made on them: the width-derived mask (rule
R9), the legal widths (rules R6, R14), the legal bit counts of `REFLECT` (rule R69), the self-test vector
(rule R6). Header fields and operand words need no assembly beyond the decoder's (rule R56). -/

namespace Sys2Proof.Machine

/-- `mask(w) = 2^w - 1` (rule R9). -/
def mask (w : Nat) : Nat := 2 ^ w - 1

/-- The legal widths 8, 16, 24 and 32 (rules R6, R14, R84). -/
def legalWidth (w : BitVec 8) : Bool := w == 8#8 || w == 16#8 || w == 24#8 || w == 32#8

/-- The bit counts `REFLECT` accepts, 0 to 32 (rules R67, R69). -/
def legalCount (n : BitVec 6) : Bool := decide (n.toNat ≤ Config.maxWidth)

/-- An operand word anded with `mask(WIDTH)`, as `INIT` stores `POLY`, `INITV` and `XOROUT` (rules R15,
R84). -/
def maskOperand (width : BitVec 8) (v : Word) : Word := BitVec.ofNat 32 (v.toNat &&& mask width.toNat)

/-- `TESTVEC`, the ASCII string "123456789" without terminator (rules R6, R94). PRESUMED for the byte
values, log entry 12. -/
def testVector : List Byte :=
  [0x31#8, 0x32#8, 0x33#8, 0x34#8, 0x35#8, 0x36#8, 0x37#8, 0x38#8, 0x39#8]

end Sys2Proof.Machine
end

