-- ==== Sys2Proof/Machine/Ops.lean ====
section
/-! DEFINITION. The shared operations: the table memory, the updates of the state, answering a command,
raising an error (the block's only exceptions, rules R97 to R105), and the hard reset (rule R113). -/

namespace Sys2Proof.Machine

/-- The canonical form of the table memory: indices strictly rising, and all of them indices of the table. -/
def Memory.wf (m : Memory) : Bool :=
  decide (m.Pairwise fun a b => a.1 < b.1) && m.all fun c => decide (c.1 < Config.tableSize)

/-- `TABLE[a]` (rules R10, R33); `none` when nothing has written the entry (log entry 2). -/
def Memory.read (m : Memory) (a : Nat) : Option Word := m.lookup a

/-- Writes `vs` to the entries from `a` up, as one transition (rules R22, R77). -/
def Memory.store (m : Memory) (a : Nat) (vs : List Word) : Memory :=
  m.filter (fun c => decide (c.1 < a))
    ++ (vs.zipIdx a).map (fun p => (p.2, p.1))
    ++ m.filter (fun c => decide (a + vs.length ≤ c.1))

/-- The block sends response words (rule R32). -/
def State.emit (s : State) (ws : List Word) : State := { s with rsp := s.rsp ++ ws }

/-- The words still to be executed, after a frame has been taken (rule R31). -/
def State.withCommands (s : State) (ws : List Word) : State := { s with cmd := ws }

/-- A new state of the state machine (rule R24). -/
def State.withFsm (s : State) (f : Fsm) : State := { s with fsm := f }

/-- A new CRC register (rule R20). -/
def State.withReg (s : State) (r : Word) : State := { s with reg := r }

/-- The descriptor registers and `MODE` as a successful `INIT` loads them (rules R14 to R19, R84). -/
def State.withDescriptor (s : State) (width : BitVec 8) (refin refout tmode : Bool)
    (poly initv xorout check : Word) : State :=
  { s with width := width, poly := poly, initv := initv, xorout := xorout, refin := refin,
           refout := refout, check := check, mode := tmode }

/-- A new table memory (rule R22). -/
def State.withTable (s : State) (m : Memory) : State := { s with table := m }

/-- `respond`: the command ends with status `OK` and its payload words (rules R10, R60, R61). -/
def respond (opc : BitVec 8) (payload : List Word) (s : State) : Result :=
  .next (s.emit (responseHeader opc none :: payload))

/-- `raise`: taking an error. The state is the state before the command, and the answer is one header word
with the echoed opcode and the status; nothing is saved, no mode changes, nothing is jumped to, and there
is no return, since the next command starts clean (rules R10, R97, R104, R105). -/
def raise (opc : BitVec 8) (e : CommandError) (s : State) : Result :=
  .next (s.emit [responseHeader opc (some e)])

/-- The answer to an illegal header: `IllegalCommand`, with whatever opcode the header has (rules R58, R60,
R101). -/
def answerIllegal (h : Word) (s : State) : Result := raise (opcodeOf h) .illegalCommand s

/-- Back-pressure: the host holds `rsp_ready` at 0 and the block holds more untaken response words than it can
buffer. It then executes no further command; it stalls, it does not drop (rule R124; log entry 6). -/
def State.stalled (s : State) : Bool := !s.rspReady && decide (Config.responseDepth < s.rsp.length)

/-- The hard reset: `Uninitialized`, both channels emptied, all else unspecified; the inputs are the host's
and stay as they are (rule R113; log entries 7 and 8). -/
def hardReset (s : State) : State := { State.reset with rst := s.rst, rspReady := s.rspReady }

end Sys2Proof.Machine
end

