-- ==== Sys2Proof/Machine/Reflector.lean ====
section
/-! DEFINITION. The Bit Reflector: the pure function `reflect` and the command `REFLECT` (41_reflector.md). -/

namespace Sys2Proof.Machine

/-- `reflect(v, n)`, the rule's loop: bit `i` of the low `n` bits goes to bit `n-1-i`, bits from `n` up pass
through (rule R67). Applied only with `n <= 32` (log entry 9). -/
def reflect (v n : Nat) : Nat :=
  (List.range n).foldl (fun r i => if v.testBit i then r ||| (1 <<< (n - 1 - i)) else r)
    (v &&& (0xFFFFFFFF ^^^ mask n))

/-- `REFLECT n, value` (rule R69). -/
def execReflect (n : BitVec 6) (value : Word) (s : State) : Result :=
  if legalCount n then respond 0x06#8 [BitVec.ofNat 32 (reflect value.toNat n.toNat)] s
  else raise 0x06#8 .rangeError s

end Sys2Proof.Machine
end

