-- ==== Sys2Proof/Machine/TableBuilder.lean ====
section
/-! DEFINITION. The Table Builder: `bitstep8`, `build_table`, and the commands `TBUILD` and `TREAD`
(42_table_builder.md). -/

namespace Sys2Proof.Machine

/-- One shift-and-XOR iteration: the top bit is tested before the shift, the mask follows (rule R72). -/
def bitStep (poly w r : Nat) : Nat :=
  if r.testBit (w - 1) then ((r <<< 1) ^^^ poly) &&& mask w else (r <<< 1) &&& mask w

/-- `k` iterations of `bitStep`. -/
def bitSteps (poly w : Nat) : Nat → Nat → Nat
  | 0, r => r
  | k + 1, r => bitSteps poly w k (bitStep poly w r)

/-- `bitstep8(r, poly, w)` (rule R72). -/
def bitstep8 (r poly w : Nat) : Nat := bitSteps poly w Config.stepsPerByte r

/-- Entry `b` of `build_table(poly, w)` (rule R73). -/
def tableEntry (poly w b : Nat) : Nat := bitstep8 ((b <<< (w - 8)) &&& mask w) (poly &&& mask w) w

/-- `build_table(poly, w)`: the 256 entries, entry 0 first (rule R73). -/
def buildTable (poly w : Nat) : List Word :=
  (List.range Config.tableSize).map fun b => BitVec.ofNat 32 (tableEntry poly w b)

/-- `TBUILD width, poly`: pure, whatever the state (rule R75). -/
def execTbuild (width : BitVec 8) (poly : Word) (s : State) : Result :=
  if legalWidth width then respond 0x07#8 (buildTable poly.toNat width.toNat) s
  else raise 0x07#8 .configError s

/-- `TREAD index` (rule R76). -/
def execTread (index : BitVec 8) (s : State) : Result :=
  if s.fsm = .uninitialized then raise 0x08#8 .usageError s
  else if s.mode = false then raise 0x08#8 .usageError s
  else match s.table.read index.toNat with
    | some v => respond 0x08#8 [v] s
    | none => .fault .tableEntryAbsent

end Sys2Proof.Machine
end

