-- ==== Sys2Proof/Machine/Engine.lean ====
section
/-! DEFINITION. The CRC Engine: the byte step in both strategies, the output transform, and the commands
`INIT`, `UPDATE`, `RESET` and `FINALIZE` (43_engine.md). -/

namespace Sys2Proof.Machine

/-- `fold(r, b, refin, w)`: the byte, reflected if asked, XORed in at the top byte (rule R79). -/
def fold (r b : Nat) (refin : Bool) (w : Nat) : Nat :=
  (r ^^^ ((if refin then reflect b 8 else b) <<< (w - 8))) &&& mask w

/-- `advance_bitwise(r, poly, w)` (rule R80). -/
def advanceBitwise (r poly w : Nat) : Nat := bitstep8 r poly w

/-- `advance_table(r, T, w)`; `none` when the entry is absent (rule R81; log entry 2). -/
def advanceTable (r : Nat) (t : Memory) (w : Nat) : Option Nat :=
  (t.read (r >>> (w - 8))).map fun e => ((r <<< 8) ^^^ e.toNat) &&& mask w

/-- `bytestep(r, b)` in the state of the block (rule R82). -/
def byteStep (s : State) (r : Nat) (b : Byte) : Option Nat :=
  if s.mode then advanceTable (fold r b.toNat s.refin s.width.toNat) s.table s.width.toNat
  else some (advanceBitwise (fold r b.toNat s.refin s.width.toNat) s.poly.toNat s.width.toNat)

/-- The byte steps of a chunk, byte 0 first (rules R34, R85). -/
def foldBytes (s : State) : Nat → List Byte → Option Nat
  | r, [] => some r
  | r, b :: bs => (byteStep s r b).bind fun r' => foldBytes s r' bs

/-- `finalize_value(r, w, refout, xorout)`: reflect first, XOR second (rule R90). -/
def finalizeValue (r w : Nat) (refout : Bool) (xorout : Nat) : Nat :=
  ((if refout then reflect (r &&& mask w) w &&& mask w else r &&& mask w) ^^^ xorout) &&& mask w

/-- `INIT`: every check before the first write, all writes one transition (rule R84). -/
def execInit (width : BitVec 8) (refin refout tmode : Bool) (poly initv xorout check : Word)
    (s : State) : Result :=
  if legalWidth width then
    respond 0x01#8 []
      ((((s.withDescriptor width refin refout tmode (maskOperand width poly) (maskOperand width initv)
          (maskOperand width xorout) check).withTable
            (if tmode then s.table.store 0 (buildTable poly.toNat width.toNat) else s.table)).withReg
              (maskOperand width initv)).withFsm .ready)
  else raise 0x01#8 .configError s

/-- `UPDATE bytes`; an empty chunk leaves `REG` and `FSM` alone (rule R85). -/
def execUpdate (bytes : List Byte) (s : State) : Result :=
  if s.fsm = .uninitialized then raise 0x02#8 .usageError s
  else match foldBytes s s.reg.toNat bytes with
    | some r =>
      respond 0x02#8 [BitVec.ofNat 32 r]
        ((s.withReg (BitVec.ofNat 32 r)).withFsm (if bytes.isEmpty then s.fsm else .accumulating))
    | none => .fault .tableEntryAbsent

/-- `RESET` (rule R87). -/
def execReset (s : State) : Result :=
  if s.fsm = .uninitialized then raise 0x03#8 .usageError s
  else respond 0x03#8 [s.initv] ((s.withReg s.initv).withFsm .ready)

/-- `FINALIZE`: writes only `FSM` (rule R91). -/
def execFinalize (s : State) : Result :=
  if s.fsm = .uninitialized then raise 0x04#8 .usageError s
  else
    respond 0x04#8 [BitVec.ofNat 32 (finalizeValue s.reg.toNat s.width.toNat s.refout s.xorout.toNat)]
      (s.withFsm .finalized)

end Sys2Proof.Machine
end

