-- ==== Sys2Proof/Machine/SelfTest.lean ====
section
/-! DEFINITION. The Self-Test: the command `SELFTEST` (44_selftest.md). -/

namespace Sys2Proof.Machine

/-- `SELFTEST`: reset, update with the test vector, finalize, compare all 32 bits of `CHECK` (rules R94,
R95). -/
def execSelftest (s : State) : Result :=
  if s.fsm = .uninitialized then raise 0x05#8 .usageError s
  else match foldBytes s s.initv.toNat testVector with
    | some r =>
      respond 0x05#8
        [boolWord (BitVec.ofNat 32 (finalizeValue r s.width.toNat s.refout s.xorout.toNat) == s.check)]
        ((s.withReg (BitVec.ofNat 32 r)).withFsm .finalized)
    | none => .fault .tableEntryAbsent

end Sys2Proof.Machine
end

