-- ==== Sys2Proof/Machine/Dispatch.lean ====
section
/-! DEFINITION. One arm per command (rule R55's semantics column). -/

namespace Sys2Proof.Machine

def exec (i : Instr) (s : State) : Host.Outcome State Fault Refusal :=
  match i with
  | .init width refin refout tmode poly initv xorout check => Sys2Proof.Machine.execInit width refin refout tmode poly initv xorout check s
  | .update bytes => Sys2Proof.Machine.execUpdate bytes s
  | .reset => Sys2Proof.Machine.execReset s
  | .finalize => Sys2Proof.Machine.execFinalize s
  | .selftest => Sys2Proof.Machine.execSelftest s
  | .reflect n value => Sys2Proof.Machine.execReflect n value s
  | .tbuild width poly => Sys2Proof.Machine.execTbuild width poly s
  | .tread index => Sys2Proof.Machine.execTread index s

end Sys2Proof.Machine
end

