-- ==== Sys2Proof/Machine/Step.lean ====
section
/-! DEFINITION. One step of the block: a hard reset while `rst` is 1, or else one command frame taken,
executed and answered (rules R31, R32, R42, R113), unless back-pressure stalls the block (rule R124). -/

namespace Sys2Proof.Machine

/-- One step. With an empty channel the block holds its state and waits for a header (rule R112, log entry
4); with a truncated frame it is stuck (rule R125, log entry 5); with a complete frame and responses backed up
it holds its state until the host takes them (rule R124, log entry 6). -/
def step (s : State) : Host.Outcome State Fault Refusal :=
  if s.rst then .next (hardReset s)
  else match decode s.cmd with
    | .idle => .next s
    | .incomplete => .refused .truncatedFrame
    | .illegal h _ rest => if s.stalled then .next s else answerIllegal h (s.withCommands rest)
    | .command i rest => if s.stalled then .next s else exec i (s.withCommands rest)

/-- The frame of an opcode-table row placed where the block takes its next frame: at the front of the
command channel, with the reset input released and the host ready for responses (log entry 3). -/
def State.withFetchWord (s : State) (nbits w : Nat) : State :=
  { s with cmd := tableFrame nbits w ++ s.cmd, rst := false, rspReady := true }

end Sys2Proof.Machine
end

