-- ==== Sys2Proof/Machine/Channels.lean ====
section
/-! DEFINITION. What the host can do to the block between two steps (rules R30, R113), and how it reads the
response channel (rule R63). -/

namespace Sys2Proof.Machine

/-- Whether the block can take a command word: not while `rst` is 1 (rule R113), and while it is stalled only
as many words ahead as it buffers (rule R124; log entry 6). -/
def commandReady (s : State) : Bool :=
  !s.rst && (!s.stalled || decide (s.cmd.length < Config.commandDepth))

/-- The words `ws` move on the command channel, in order; `none` where the block does not take one of them, so
that the host cannot send them all before the block is ready again (rules R30, R113, R124). -/
def sendCommand : List Word → State → Option State
  | [], s => some s
  | w :: ws, s => if commandReady s then sendCommand ws { s with cmd := s.cmd ++ [w] } else none

/-- The oldest response word moves to the host: only while `rsp_ready` is 1 and `rst` is 0 (rules R30, R113). -/
def takeResponse (s : State) : Option (Word × State) :=
  if s.rst || !s.rspReady then none
  else match s.rsp with
    | [] => none
    | w :: ws => some (w, { s with rsp := ws })

/-- The host drives the `rsp_ready` input (rules R30, R124). -/
def driveReady (level : Bool) (s : State) : State := { s with rspReady := level }

/-- The host drives the hard-reset input; only a step samples it (rules R30, R113). -/
def driveReset (level : Bool) (s : State) : State := { s with rst := level }

/-- One response as the host reads it (rules R60, R61). -/
structure Response where
  opcode : BitVec 8
  status : BitVec 4
  payload : List Word
deriving DecidableEq, Repr

/-- Payload words of a response, from its header alone: 0 on any error, else by opcode (rules R61, R63). -/
def payloadLength (h : Word) : Nat :=
  if h.extractLsb' 0 4 ≠ 0#4 then 0
  else if opcodeOf h = 0x07#8 then Config.tableSize
  else if opcodeOf h = 0x01#8 then 0
  else 1

/-- The host's parse of the response channel: one response and the words after it, `none` while the frame
is not complete (rule R63). -/
def parseResponse : List Word → Option (Response × List Word)
  | [] => none
  | h :: ws =>
    if ws.length < payloadLength h then none
    else some (⟨opcodeOf h, h.extractLsb' 0 4, ws.take (payloadLength h)⟩, ws.drop (payloadLength h))

end Sys2Proof.Machine
end

