-- ==== Sys2Proof/Machine/TextForm.lean ====
section
/-! DEFINITION. The text form of commands and responses (rule R64) and the two pseudo-commands (rule R65).
Notation only: no meaning depends on it. -/

namespace Sys2Proof.Machine

/-- `CRC chunk`: its value is the payload of the `FINALIZE` (rule R65). -/
def crcCommands (chunk : List Byte) : List Instr := [.reset, .update chunk, .finalize]

/-- `PEEK`: its value is the current `REG` (rule R65). -/
def peekCommands : List Instr := [.update []]

/-- The hexadecimal digit of a number below 16. -/
def hexDigit (d : Nat) : String :=
  ["0", "1", "2", "3", "4", "5", "6", "7", "8", "9", "A", "B", "C", "D", "E", "F"].getD d "?"

/-- `digits` hexadecimal digits of a number, most significant first, after `0x` (rules R7, R64). -/
def hexText (digits v : Nat) : String :=
  (List.range digits).foldl (fun t k => t ++ hexDigit ((v >>> (4 * (digits - 1 - k))) % 16)) "0x"

/-- A boolean field is written 0 or 1 (rule R64). -/
def bitText (b : Bool) : String := if b then "1" else "0"

/-- A bracketed list (rule R64). -/
def listText (items : List String) : String := "[" ++ ", ".intercalate items ++ "]"

/-- A command in text form, numbers in hexadecimal, a chunk as a list of byte values (rule R64; log entry
13). -/
def instrText : Instr → String
  | .init width refin refout tmode poly initv xorout check =>
    "INIT width=" ++ hexText 2 width.toNat ++ " refin=" ++ bitText refin ++ " refout=" ++ bitText refout
      ++ " tmode=" ++ bitText tmode ++ " poly=" ++ hexText 8 poly.toNat ++ " init=" ++ hexText 8 initv.toNat
      ++ " xorout=" ++ hexText 8 xorout.toNat ++ " check=" ++ hexText 8 check.toNat
  | .update bytes => "UPDATE " ++ listText (bytes.map fun b => hexText 2 b.toNat)
  | .reset => "RESET"
  | .finalize => "FINALIZE"
  | .selftest => "SELFTEST"
  | .reflect n value => "REFLECT n=" ++ hexText 2 n.toNat ++ " value=" ++ hexText 8 value.toNat
  | .tbuild width poly => "TBUILD width=" ++ hexText 2 width.toNat ++ " poly=" ++ hexText 8 poly.toNat
  | .tread index => "TREAD index=" ++ hexText 2 index.toNat

/-- A response in text form (rule R64); statuses 5 to 15 are never sent (rule R62). -/
def responseText (r : Response) : String :=
  if r.status = 0#4 then
    match r.payload with
    | [] => "-> OK"
    | [v] => "-> OK " ++ hexText 8 v.toNat
    | vs => "-> OK " ++ listText (vs.map fun v => hexText 8 v.toNat)
  else if r.status = 1#4 then "-> ConfigError"
  else if r.status = 2#4 then "-> UsageError"
  else if r.status = 3#4 then "-> RangeError"
  else if r.status = 4#4 then "-> IllegalCommand"
  else "-> unassigned status"

end Sys2Proof.Machine
end

