-- ==== Sys2Proof/Safety.lean ====
section
/-! DEFINITION. The invariant of the block, the states a host can bring it to, and the terms the claims are
stated in. -/

namespace Sys2Proof.Machine

/-- Every stored register fits the width in use (rule R21). -/
def Masked (s : State) : Prop :=
  s.reg.toNat ≤ mask s.width.toNat ∧ s.poly.toNat ≤ mask s.width.toNat ∧
  s.initv.toNat ≤ mask s.width.toNat ∧ s.xorout.toNat ≤ mask s.width.toNat

/-- The table holds what `build_table` gives for the polynomial and width in use (rule R23). -/
def TableBuilt (s : State) : Prop :=
  ∀ b, b < Config.tableSize → s.table.read b = (buildTable s.poly.toNat s.width.toNat)[b]?

/-- The invariant of the block: the table memory is canonical, and once a descriptor is loaded the width is
legal (rule R14), the registers are masked (rule R21) and, in table mode, the table is the one built (rule
R23). -/
structure Inv (s : State) : Prop where
  memory : s.table.wf = true
  width : s.fsm ≠ .uninitialized → legalWidth s.width = true
  masked : s.fsm ≠ .uninitialized → Masked s
  table : s.fsm ≠ .uninitialized → s.mode = true → TableBuilt s

/-- The states a host can bring the block to: from a hard reset, by sending words, taking response words,
driving `rst` and `rsp_ready`, and steps of the block. -/
inductive Reachable : State → Prop where
  | reset : Reachable State.reset
  | send (s t : State) (ws : List Word) : Reachable s → sendCommand ws s = some t → Reachable t
  | take (s t : State) (w : Word) : Reachable s → takeResponse s = some (w, t) → Reachable t
  | drive (s : State) (level : Bool) : Reachable s → Reachable (driveReset level s)
  | ready (s : State) (level : Bool) : Reachable s → Reachable (driveReady level s)
  | step (s t : State) : Reachable s → step s = .next t → Reachable t

/-- A safe state: the next step does not fault. The block may be waiting for words (rule R125). -/
def Safe (s : State) : Prop := ∀ f, step s ≠ .fault f

/-- Commands run one after another, stopping at the first that does not answer (rule R42). -/
def execAll : List Instr → State → Result
  | [], s => .next s
  | i :: is, s =>
    match exec i s with
    | .next t => execAll is t
    | .fault f => .fault f
    | .refused r => .refused r

/-- The register after a chunk, by the bitwise strategy alone (rules R79, R80, R85). -/
def bitwiseRegister (s : State) (r : Nat) (bytes : List Byte) : Nat :=
  bytes.foldl (fun r b => advanceBitwise (fold r b.toNat s.refin s.width.toNat) s.poly.toNat s.width.toNat) r

/-- Two states that differ at most in the strategy and its table. -/
def SameButStrategy (s t : State) : Prop := { s with mode := t.mode, table := t.table } = t

/-- The reserved bits of the header of each format (rules R48 to R53). -/
def reservedBits (opc : BitVec 8) : Word :=
  if opc = 0x01#8 then 0x00F8FF00#32
  else if opc = 0x02#8 then 0x00FF0000#32
  else if opc = 0x06#8 then 0x00FFFFC0#32
  else if opc = 0x07#8 ∨ opc = 0x08#8 then 0x00FFFF00#32
  else 0x00FFFFFF#32

/-- An illegal header, cases (a) and (b) of rule R58, said with the formats' reserved bits and not with the
decoder. -/
abbrev IllegalHeader (h : Word) : Prop :=
  (opcodeOf h = 0x00#8 ∨ 0x09#8 ≤ opcodeOf h) ∨
  (0x01#8 ≤ opcodeOf h ∧ opcodeOf h ≤ 0x08#8 ∧ h &&& reservedBits (opcodeOf h) ≠ 0#32)

/-- The command is one that needs a descriptor (rules R99, R103). -/
def needsDescriptor : Instr → Bool
  | .init _ _ _ _ _ _ _ _ => false
  | .update _ => true
  | .reset => true
  | .finalize => true
  | .selftest => true
  | .reflect _ _ => false
  | .tbuild _ _ => false
  | .tread _ => true

/-- The operand a command checks is legal (rules R98, R100). -/
def operandsLegal : Instr → Bool
  | .init width _ _ _ _ _ _ _ => legalWidth width
  | .update _ => true
  | .reset => true
  | .finalize => true
  | .selftest => true
  | .reflect n _ => legalCount n
  | .tbuild width _ => legalWidth width
  | .tread _ => true

end Sys2Proof.Machine
end

