-- ==== Sys2Proof/Certificates/Slice0/Obligations.lean ====
section
/-! DEFINITION. The statements for the provers. Each docstring names the rules it formalises. Response
headers are written as the words of rule R60: opcode byte, zeros, status digit. -/

open Sys2Proof Sys2Proof.Machine

/-! ## Encoding -/

/-- One header per command, written from the formats of rules R48 to R53, decodes to its command. -/
def Obligations.DecoderReadsWrittenOutFrames : Prop :=
  decode [0b00000001_00000_0_0_1_00000000_00011000#32, 1#32, 2#32, 3#32, 4#32]
    = .command (.init 24#8 true false false 1#32 2#32 3#32 4#32) [] ∧
  decode [0b00000010_00000000_0000000000000101#32, 0x34333231#32, 0xABCDEF35#32]
    = .command (.update [0x31#8, 0x32#8, 0x33#8, 0x34#8, 0x35#8]) [] ∧
  decode [0b00000011_000000000000000000000000#32] = .command .reset [] ∧
  decode [0b00000100_000000000000000000000000#32] = .command .finalize [] ∧
  decode [0b00000101_000000000000000000000000#32] = .command .selftest [] ∧
  decode [0b00000110_000000000000000000_100001#32, 0x31#32] = .command (.reflect 33#6 0x31#32) [] ∧
  decode [0b00000111_0000000000000000_00001001#32, 7#32] = .command (.tbuild 9#8 7#32) [] ∧
  decode [0b00001000_0000000000000000_11111111#32] = .command (.tread 255#8) []

/-- Rule R66, both directions: decoding the encoding of a command yields it; encoding the decoding of a
legal frame yields the frame, except that the ignored pad lanes of an `UPDATE` become 0. -/
def Obligations.EncodingIsTheInverseOfDecoding : Prop :=
  (∀ (i : Instr) (rest : List Word), i.WellFormed → decode (encode i ++ rest) = .command i rest) ∧
  (∀ (h : Word) (ops rest : List Word) (i : Instr), ops.length + 1 = framelen h →
    decode (h :: ops ++ rest) = .command i rest →
      i.WellFormed ∧ encodeHeader i = h ∧
      ((∀ bytes, i ≠ .update bytes) → encodeOperands i = ops) ∧
      (∀ bytes, i = .update bytes →
        (encodeOperands i).length = ops.length ∧
        ∀ k, k < 4 * ops.length →
          ((encodeOperands i).flatMap wordBytes)[k]?
            = if k < bytes.length then (ops.flatMap wordBytes)[k]? else some 0#8))

/-- Rule R57: decoding is total and waits for a whole frame. A complete frame is one command when its header
selects a row of the opcode map, or else the verdict `Illegal(h)`, and exactly `framelen(h)` words are
consumed. -/
def Obligations.DecodingIsTotal : Prop :=
  (∀ (h : Word) (ops rest : List Word), ops.length + 1 = framelen h →
    ((∃ r ∈ opcodeMap, r.selects h = true) →
      ∃ i : Instr, i.WellFormed ∧ decode (h :: ops ++ rest) = .command i rest) ∧
    ((∀ r ∈ opcodeMap, r.selects h = false) →
      ∃ why, decode (h :: ops ++ rest) = .illegal h why rest)) ∧
  (∀ (h : Word) (ws : List Word), ws.length + 1 < framelen h → decode (h :: ws) = .incomplete) ∧
  decode [] = .idle

/-- The opcode map of rule R55: a header selects at most one row, and the command decoded is the row's. -/
def Obligations.OpcodeMapIsUnambiguous : Prop :=
  (∀ h : Word, (opcodeMap.filter fun r => r.selects h).length ≤ 1) ∧
  (∀ (h : Word) (ops rest : List Word) (i : Instr), ops.length + 1 = framelen h →
    decode (h :: ops ++ rest) = .command i rest →
      (opcodeMap.filter fun r => r.selects h).map OpcodeRow.mnemonic = [i.mnemonic] ∧
      opcodeOf h = i.opcode)

/-- Rule R54: the frame length by opcode, and that only `OPC` and `LEN` of the header matter. -/
def Obligations.FrameLengthFollowsOpcodeAndLen : Prop :=
  (∀ h : Word,
    (opcodeOf h = 0x01#8 → framelen h = 5) ∧
    (opcodeOf h = 0x02#8 → framelen h = 1 + ((h.toNat % 65536) + 3) / 4) ∧
    (opcodeOf h = 0x06#8 → framelen h = 2) ∧
    (opcodeOf h = 0x07#8 → framelen h = 2) ∧
    (opcodeOf h ≠ 0x01#8 → opcodeOf h ≠ 0x02#8 → opcodeOf h ≠ 0x06#8 → opcodeOf h ≠ 0x07#8 → framelen h = 1)) ∧
  (∀ h h' : Word, opcodeOf h = opcodeOf h' → h.toNat % 65536 = h'.toNat % 65536 → framelen h = framelen h')

/-- Rule R35: byte `k` of a chunk is lane `k mod 4` of data word `k div 4`, low lane first; the unused lanes
have no effect, since the chunk is its `LEN` bytes and no more. -/
def Obligations.ChunkBytesArePackedLowLaneFirst : Prop :=
  ∀ (len : BitVec 16) (ops rest : List Word), ops.length = (len.toNat + 3) / 4 →
    ∃ bytes : List Byte,
      decode ((0x02#8 ++ 0#8 ++ len : Word) :: ops ++ rest) = .command (.update bytes) rest ∧
      bytes.length = len.toNat ∧
      ∀ k, k < len.toNat → bytes[k]? = some ((ops.getD (k / 4) 0#32).extractLsb' (8 * (k % 4)) 8)

/-! ## The step -/

/-- A step is the decoded command run on the state after its frame is taken (rules R31, R42), unless untaken
responses stall the block (rule R124; that a stall and a wait are steps that hold the state is the model's,
log entries 4 and 6); with an empty channel the block holds its state (rule R112). -/
def Obligations.StepRunsTheDecodedCommand : Prop :=
  (∀ (s : State) (i : Instr) (rest : List Word), s.rst = false → decode s.cmd = .command i rest →
    Sys2Proof.Machine.step s
      = if s.rspReady = false ∧ Config.responseDepth < s.rsp.length then .next s
        else Sys2Proof.Machine.exec i { s with cmd := rest }) ∧
  (∀ s : State, s.rst = false → s.cmd = [] → Sys2Proof.Machine.step s = .next s)

/-- Rules R113 and R29: with `rst` at 1 the block is `Uninitialized` with both channels empty, whatever it
was doing. That the two inputs are held in the state and a reset step leaves them as the host drives them
is the model's choice, log entry 7. -/
def Obligations.HardResetUninitializesAndEmptiesChannels : Prop :=
  ∀ s : State, s.rst = true →
    ∃ t, Sys2Proof.Machine.step s = .next t ∧ t.fsm = .uninitialized ∧ t.cmd = [] ∧ t.rsp = [] ∧
      t.rst = true ∧ t.rspReady = s.rspReady

/-- Rule R125: a truncated frame leaves the block stuck however often more of its words come, until the
frame is complete or the host resets the block. Two clauses are the model's choice and not R125's: that
stuck is a refusal of the step (log entry 5), and that a block that is not stalled takes every further word,
however many (log entries 3 and 6; R124 leaves the buffering open). -/
def Obligations.TruncatedFrameIsStuckUntilCompletedOrReset : Prop :=
  ∀ (s : State) (h : Word) (ws : List Word), s.rst = false → s.cmd = h :: ws →
    ws.length + 1 < framelen h →
      Sys2Proof.Machine.step s = .refused .truncatedFrame ∧
      (∀ (more : List Word) (t : State), sendCommand more s = some t →
        (ws.length + 1 + more.length < framelen h → Sys2Proof.Machine.step t = .refused .truncatedFrame) ∧
        (framelen h ≤ ws.length + 1 + more.length → Sys2Proof.Machine.step t ≠ .refused .truncatedFrame)) ∧
      (s.stalled = false → ∀ more : List Word, sendCommand more s = some { s with cmd := s.cmd ++ more }) ∧
      ∃ t, Sys2Proof.Machine.step (driveReset true s) = .next t ∧ t.fsm = .uninitialized ∧ t.cmd = []

/-- Rules R101 and R58: an illegal header, unassigned opcode or reserved bit set, is answered
`IllegalCommand`, changes no state and consumes its whole frame; no other header is answered so. A block that
back-pressure stalls answers later (rule R124). -/
def Obligations.IllegalHeaderIsAnsweredIllegalCommand : Prop :=
  ∀ (s : State) (h : Word) (ops rest : List Word), s.rst = false → s.cmd = h :: ops ++ rest →
    ops.length + 1 = framelen h →
      (IllegalHeader h → s.stalled = false →
        Sys2Proof.Machine.step s
          = .next { s with cmd := rest, rsp := s.rsp ++ [(opcodeOf h ++ 0#20 ++ 4#4 : Word)] }) ∧
      (¬ IllegalHeader h →
        ∀ t, Sys2Proof.Machine.step s = .next t →
          t.rsp ≠ s.rsp ++ [(opcodeOf h ++ 0#20 ++ 4#4 : Word)])

/-- Rule R104: whenever a complete frame is answered with an error status, the frame is consumed, no state
element changes, and the answer is one word, the echoed opcode and the status. -/
def Obligations.FailingCommandChangesNoState : Prop :=
  ∀ (s t : State) (h : Word) (ops rest : List Word) (hdr : Word) (payload : List Word),
    s.rst = false → s.cmd = h :: ops ++ rest → ops.length + 1 = framelen h →
    Sys2Proof.Machine.step s = .next t → t.rsp = s.rsp ++ hdr :: payload →
    hdr.extractLsb' 0 4 ≠ 0#4 →
      hdr = (opcodeOf h ++ 0#20 ++ hdr.extractLsb' 0 4 : Word) ∧
      t = { s with cmd := rest, rsp := s.rsp ++ [hdr] }

/-- Rules R97 to R100 and R103: which errors the commands raise, and when; a command with none of these
grounds succeeds, in every state that meets the invariant. -/
def Obligations.ErrorsAreRaisedExactlyOnTheirGrounds : Prop :=
  ∀ (i : Instr) (s : State),
    (needsDescriptor i = true → s.fsm = .uninitialized →
      Sys2Proof.Machine.exec i s = .next { s with rsp := s.rsp ++ [(i.opcode ++ 0#20 ++ 2#4 : Word)] }) ∧
    (∀ index, i = .tread index → s.mode = false →
      Sys2Proof.Machine.exec i s = .next { s with rsp := s.rsp ++ [0x08000002#32] }) ∧
    (operandsLegal i = false →
      Sys2Proof.Machine.exec i s
        = .next { s with rsp := s.rsp ++ [(i.opcode ++ 0#20 ++ (if i.opcode = 0x06#8 then 3#4 else 1#4) : Word)] }) ∧
    (Inv s → (needsDescriptor i = true → s.fsm ≠ .uninitialized) →
      (∀ index, i = .tread index → s.mode = true) → operandsLegal i = true →
        ∃ t payload, Sys2Proof.Machine.exec i s = .next t ∧
          t.rsp = s.rsp ++ (i.opcode ++ 0#20 ++ 0#4 : Word) :: payload)

/-- Rules R32 and R60 to R63: a command is answered by exactly one response frame, which the host's parse
reads back whole: opcode echoed, bits 23:4 zero, a status of rule R62, no payload on an error, and on
success the payload count of rule R61. -/
def Obligations.OneResponseFramePerCommand : Prop :=
  ∀ (i : Instr) (s t : State), Sys2Proof.Machine.exec i s = .next t →
    ∃ (hdr : Word) (payload : List Word) (status : BitVec 4),
      t.rsp = s.rsp ++ hdr :: payload ∧ hdr = (i.opcode ++ 0#20 ++ status : Word) ∧
      status.toNat ≤ 3 ∧ (status ≠ 0#4 → payload = []) ∧
      (status = 0#4 →
        payload.length = if i.opcode = 0x07#8 then 256 else if i.opcode = 0x01#8 then 0 else 1) ∧
      ∀ later : List Word, parseResponse (hdr :: payload ++ later) = some (⟨i.opcode, status, payload⟩, later)

/-- Rule R105: errors are not sticky. After a failing command the next command does what it would have done
had the failed one never been sent, but for the words already in the response channel. -/
def Obligations.ErrorsAreNotSticky : Prop :=
  ∀ (i j : Instr) (s t : State) (hdr : Word), Sys2Proof.Machine.exec i s = .next t →
    t.rsp = s.rsp ++ [hdr] → hdr.extractLsb' 0 4 ≠ 0#4 →
      (∀ u, Sys2Proof.Machine.exec j s = .next u →
        ∃ ws, u.rsp = s.rsp ++ ws ∧ Sys2Proof.Machine.exec j t = .next { u with rsp := t.rsp ++ ws }) ∧
      (∀ f, Sys2Proof.Machine.exec j s = .fault f → Sys2Proof.Machine.exec j t = .fault f)

/-! ## The commands -/

/-- Rule R84: with a legal width `INIT` loads the descriptor, operands masked to the width and `CHECK`
whole, seeds the register, becomes `Ready`, and in table mode writes all 256 entries; nothing else
changes. With any other width it is answered `ConfigError` and changes nothing. -/
def Obligations.InitLoadsTheDescriptor : Prop :=
  ∀ (width : BitVec 8) (refin refout tmode : Bool) (poly initv xorout check : Word) (s : State),
    (width = 8#8 ∨ width = 16#8 ∨ width = 24#8 ∨ width = 32#8 →
      ∃ t, Sys2Proof.Machine.exec (.init width refin refout tmode poly initv xorout check) s = .next t ∧
        t.fsm = .ready ∧ t.width = width ∧ t.refin = refin ∧ t.refout = refout ∧ t.mode = tmode ∧
        t.check = check ∧
        t.poly.toNat = poly.toNat % 2 ^ width.toNat ∧ t.initv.toNat = initv.toNat % 2 ^ width.toNat ∧
        t.xorout.toNat = xorout.toNat % 2 ^ width.toNat ∧ t.reg = t.initv ∧
        t.rsp = s.rsp ++ [0x01000000#32] ∧ t.cmd = s.cmd ∧ t.rst = s.rst ∧ t.rspReady = s.rspReady ∧
        (tmode = true →
          (∀ b, b < 256 → ∃ e : Word, t.table.read b = some e ∧
            e.toNat = bitstep8 (b * 2 ^ (width.toNat - 8)) (poly.toNat % 2 ^ width.toNat) width.toNat) ∧
          (∀ b, 256 ≤ b → t.table.read b = s.table.read b)) ∧
        (tmode = false → ∀ b, t.table.read b = s.table.read b)) ∧
    (width ≠ 8#8 → width ≠ 16#8 → width ≠ 24#8 → width ≠ 32#8 →
      Sys2Proof.Machine.exec (.init width refin refout tmode poly initv xorout check) s
        = .next { s with rsp := s.rsp ++ [0x01000001#32] })

/-- Rule R84 and rule R119: a successful table-mode `INIT` replaces all prior state. Whatever two states it
starts from, it leaves the same state, table memory included, but for the channels and the two inputs. -/
def Obligations.InitLeavesNothingOfThePriorState : Prop :=
  ∀ (width : BitVec 8) (refin refout : Bool) (poly initv xorout check : Word) (s s' : State),
    legalWidth width = true → Inv s → Inv s' →
      ∃ t t', Sys2Proof.Machine.exec (.init width refin refout true poly initv xorout check) s = .next t ∧
        Sys2Proof.Machine.exec (.init width refin refout true poly initv xorout check) s' = .next t' ∧
        { t' with cmd := t.cmd, rsp := t.rsp, rst := t.rst, rspReady := t.rspReady } = t

/-- Rule R85, by the bitwise step of rules R79 and R80 in either mode: `UPDATE` folds the bytes in order,
answers the new register, becomes `Accumulating` unless the chunk is empty, and changes nothing else. The
second clause says bit by bit how a byte enters the register (rules R36, R79): bit `j` of the byte, bit
`7 - j` with `REFIN`, at bit `w - 8 + j`, all other bits as they were. -/
def Obligations.UpdateFoldsTheChunk : Prop :=
  (∀ (bytes : List Byte) (s : State), Inv s → s.fsm ≠ .uninitialized →
    Sys2Proof.Machine.exec (.update bytes) s
      = .next { s with
          reg := BitVec.ofNat 32 (bitwiseRegister s s.reg.toNat bytes)
          fsm := if bytes = [] then s.fsm else .accumulating
          rsp := s.rsp ++ [0x02000000#32, BitVec.ofNat 32 (bitwiseRegister s s.reg.toNat bytes)] }) ∧
  (∀ (w r : Nat) (b : Byte) (refin : Bool), w = 8 ∨ w = 16 ∨ w = 24 ∨ w = 32 → r ≤ mask w →
    (∀ j, j < 8 →
      (fold r b.toNat refin w).testBit (w - 8 + j)
        = (r.testBit (w - 8 + j) ^^ b.getLsbD (if refin then 7 - j else j))) ∧
    (∀ k, k < w - 8 → (fold r b.toNat refin w).testBit k = r.testBit k) ∧
    ∀ k, w ≤ k → (fold r b.toNat refin w).testBit k = false)

/-- Rule R87: `RESET` reloads the register from `INITV`, answers it, becomes `Ready`, and changes nothing
else; without a descriptor it is answered `UsageError`. -/
def Obligations.ResetReloadsTheInitialValue : Prop :=
  ∀ s : State,
    (s.fsm ≠ .uninitialized →
      Sys2Proof.Machine.exec .reset s
        = .next { s with reg := s.initv, fsm := .ready, rsp := s.rsp ++ [0x03000000#32, s.initv] }) ∧
    (s.fsm = .uninitialized →
      Sys2Proof.Machine.exec .reset s = .next { s with rsp := s.rsp ++ [0x03000002#32] })

/-- Rules R90 and R91, bit by bit: `FINALIZE` answers the register, all `WIDTH` bits reversed if `REFOUT`,
then XORed with `XOROUT`, with no bit above the width, and writes only `FSM`. -/
def Obligations.FinalizeReflectsThenXors : Prop :=
  ∀ s : State, Inv s → s.fsm ≠ .uninitialized →
    ∃ v : Word,
      Sys2Proof.Machine.exec .finalize s = .next { s with fsm := .finalized, rsp := s.rsp ++ [0x04000000#32, v] } ∧
      ∀ k, v.getLsbD k =
        (decide (k < s.width.toNat) &&
          ((if s.refout then s.reg.getLsbD (s.width.toNat - 1 - k) else s.reg.getLsbD k) ^^ s.xorout.getLsbD k))

/-- Rule R96 (a) and (c), rule R94: `SELFTEST` leaves the state of `RESET`, `UPDATE "123456789"`,
`FINALIZE`, and answers 1 exactly when that `FINALIZE` payload equals all 32 bits of `CHECK`; a second
`SELFTEST` gives the same answer. -/
def Obligations.SelftestIsResetUpdateFinalizeCompare : Prop :=
  ∀ s : State, Inv s → s.fsm ≠ .uninitialized →
    ∃ (t c u : State) (answers : List Word) (v : Word),
      Sys2Proof.Machine.exec .selftest s = .next t ∧
      execAll [.reset, .update [0x31#8, 0x32#8, 0x33#8, 0x34#8, 0x35#8, 0x36#8, 0x37#8, 0x38#8, 0x39#8],
        .finalize] s = .next c ∧
      c.rsp = s.rsp ++ answers ++ [0x04000000#32, v] ∧
      t = { c with rsp := s.rsp ++ [0x05000000#32, if v = s.check then 1#32 else 0#32] } ∧
      Sys2Proof.Machine.exec .selftest t = .next u ∧
      u = { t with rsp := t.rsp ++ [0x05000000#32, if v = s.check then 1#32 else 0#32] }

/-- Rule R96 (d): the five configurations of the known-vector table pass the self-test in both
strategies, run from a hard reset. -/
def Obligations.KnownVectorsPassTheSelftest : Prop :=
  ∀ (tmode : Bool) (c : BitVec 8 × Word × Word × Word × Bool × Bool × Word),
    c ∈ [(8#8, 0x07#32, 0#32, 0#32, false, false, 0xF4#32),
         (16#8, 0x8005#32, 0#32, 0#32, true, true, 0xBB3D#32),
         (32#8, 0x04C11DB7#32, 0xFFFFFFFF#32, 0xFFFFFFFF#32, true, true, 0xCBF43926#32),
         (32#8, 0x1EDC6F41#32, 0xFFFFFFFF#32, 0xFFFFFFFF#32, true, true, 0xE3069283#32),
         (32#8, 0x04C11DB7#32, 0xFFFFFFFF#32, 0xFFFFFFFF#32, false, false, 0xFC891918#32)] →
    ∃ t,
      execAll [.init c.1 c.2.2.2.2.1 c.2.2.2.2.2.1 tmode c.2.1 c.2.2.1 c.2.2.2.1 c.2.2.2.2.2.2, .selftest]
        State.reset = .next t ∧
      t.rsp = [0x01000000#32, 0x05000000#32, 1#32]

/-- Rules R67 and R69: `REFLECT` answers the value with its low `N` bits reversed and the others as they
came, in every state, and changes nothing; for `N` above 32 it is answered `RangeError`. -/
def Obligations.ReflectReversesTheLowBits : Prop :=
  ∀ (n : BitVec 6) (value : Word) (s : State),
    (n.toNat ≤ 32 →
      ∃ v : Word,
        Sys2Proof.Machine.exec (.reflect n value) s = .next { s with rsp := s.rsp ++ [0x06000000#32, v] } ∧
        ∀ k, k < 32 →
          v.getLsbD k = if k < n.toNat then value.getLsbD (n.toNat - 1 - k) else value.getLsbD k) ∧
    (32 < n.toNat →
      Sys2Proof.Machine.exec (.reflect n value) s = .next { s with rsp := s.rsp ++ [0x06000003#32] })

/-- Rules R73 and R75: `TBUILD` answers the 256 entries of `build_table`, entry 0 first, in every state,
ignores the bits of `POLY` above the width, and changes nothing; with an illegal width it is answered
`ConfigError`. -/
def Obligations.TbuildAnswersTheTable : Prop :=
  ∀ (width : BitVec 8) (poly : Word) (s : State),
    (legalWidth width = true →
      (∃ payload : List Word,
        Sys2Proof.Machine.exec (.tbuild width poly) s
          = .next { s with rsp := s.rsp ++ 0x07000000#32 :: payload } ∧
        payload.length = 256 ∧
        ∀ b, b < 256 → ∃ e : Word, payload[b]? = some e ∧
          e.toNat = bitstep8 (b * 2 ^ (width.toNat - 8)) (poly.toNat % 2 ^ width.toNat) width.toNat) ∧
      ∀ poly' : Word, poly'.toNat % 2 ^ width.toNat = poly.toNat % 2 ^ width.toNat →
        Sys2Proof.Machine.exec (.tbuild width poly') s = Sys2Proof.Machine.exec (.tbuild width poly) s) ∧
    (legalWidth width = false →
      Sys2Proof.Machine.exec (.tbuild width poly) s = .next { s with rsp := s.rsp ++ [0x07000001#32] })

/-- Rules R76 and R23: in table mode `TREAD` answers the entry `build_table` gives for the polynomial and
width in use, for every index, and changes nothing; without a descriptor, or in bitwise mode, it is
answered `UsageError`. -/
def Obligations.TreadAnswersTheBuiltEntry : Prop :=
  ∀ (index : BitVec 8) (s : State),
    (Inv s → s.fsm ≠ .uninitialized → s.mode = true →
      ∃ e : Word,
        Sys2Proof.Machine.exec (.tread index) s = .next { s with rsp := s.rsp ++ [0x08000000#32, e] } ∧
        e.toNat = bitstep8 (index.toNat * 2 ^ (s.width.toNat - 8)) s.poly.toNat s.width.toNat) ∧
    (s.fsm = .uninitialized ∨ s.mode = false →
      Sys2Proof.Machine.exec (.tread index) s = .next { s with rsp := s.rsp ++ [0x08000002#32] })

/-! ## Frames -/

/-- What the commands other than `INIT` leave unchanged (rule R25's table of access): the descriptor,
`MODE`, every table entry, the words still to be executed and the two inputs always; `REG` but for a
non-empty `UPDATE`, `RESET` and `SELFTEST`; `FSM` but for those and `FINALIZE`. -/
def Obligations.CommandsOtherThanInitKeepTheirFrame : Prop :=
  ∀ (i : Instr) (s t : State), i.opcode ≠ 0x01#8 → Sys2Proof.Machine.exec i s = .next t →
    t.width = s.width ∧ t.poly = s.poly ∧ t.initv = s.initv ∧ t.xorout = s.xorout ∧ t.refin = s.refin ∧
    t.refout = s.refout ∧ t.check = s.check ∧ t.mode = s.mode ∧
    (∀ b, t.table.read b = s.table.read b) ∧ t.cmd = s.cmd ∧ t.rst = s.rst ∧
    t.rspReady = s.rspReady ∧
    (t.reg ≠ s.reg → i = .reset ∨ i = .selftest ∨ ∃ bytes, bytes ≠ [] ∧ i = .update bytes) ∧
    (t.fsm ≠ s.fsm → i = .reset ∨ i = .selftest ∨ i = .finalize ∨ ∃ bytes, bytes ≠ [] ∧ i = .update bytes)

/-! ## The state machine -/

/-- Rule R24: the transition table; that no command returns to `Uninitialized` and no step without a hard
reset does; and that no response depends on which of `Ready`, `Accumulating`, `Finalized` the block is
in. -/
def Obligations.StateMachineFollowsTheTransitionTable : Prop :=
  (∀ (i : Instr) (s t : State), Sys2Proof.Machine.exec i s = .next t →
    t.fsm = match i with
      | .init width _ _ _ _ _ _ _ => if legalWidth width then .ready else s.fsm
      | .update bytes => if s.fsm = .uninitialized ∨ bytes = [] then s.fsm else .accumulating
      | .reset => if s.fsm = .uninitialized then .uninitialized else .ready
      | .finalize => if s.fsm = .uninitialized then .uninitialized else .finalized
      | .selftest => if s.fsm = .uninitialized then .uninitialized else .finalized
      | .reflect _ _ => s.fsm
      | .tbuild _ _ => s.fsm
      | .tread _ => s.fsm) ∧
  (∀ (i : Instr) (s : State), needsDescriptor i = true → s.fsm = .uninitialized →
    Sys2Proof.Machine.exec i s = .next { s with rsp := s.rsp ++ [(i.opcode ++ 0#20 ++ 2#4 : Word)] }) ∧
  (∀ (index : BitVec 8) (s : State), s.mode = false →
    Sys2Proof.Machine.exec (.tread index) s = .next { s with rsp := s.rsp ++ [0x08000002#32] }) ∧
  (∀ s t : State, s.rst = false → s.fsm ≠ .uninitialized → Sys2Proof.Machine.step s = .next t →
    t.fsm ≠ .uninitialized) ∧
  (∀ (i : Instr) (s t : State) (f : Fsm), s.fsm ≠ .uninitialized → f ≠ .uninitialized →
    Sys2Proof.Machine.exec i s = .next t →
      ∃ t', Sys2Proof.Machine.exec i { s with fsm := f } = .next t' ∧ { t' with fsm := t.fsm } = t)

/-! ## Invariants -/

/-- The invariant of rules R14, R21 and R23 holds after a hard reset. -/
def Obligations.InvariantHoldsAtReset : Prop := Inv State.reset

/-- Every step keeps the invariant: the table memory canonical, the width legal (rule R14), the registers
masked (rules R21, R93), the table the one built for the polynomial and width in use (rule R23). -/
def Obligations.EveryStepKeepsTheInvariant : Prop :=
  ∀ s t : State, Inv s → Sys2Proof.Machine.step s = .next t → Inv t

/-- Rule R21 for every state a host can bring the block to: once initialized, every register and in table
mode every entry fits the width, and so does every payload of `UPDATE`, `RESET`, `FINALIZE` and `TREAD`. -/
def Obligations.StoredAndReturnedValuesFitTheWidth : Prop :=
  ∀ s : State, Reachable s → s.fsm ≠ .uninitialized →
    s.reg.toNat ≤ mask s.width.toNat ∧ s.poly.toNat ≤ mask s.width.toNat ∧
    s.initv.toNat ≤ mask s.width.toNat ∧ s.xorout.toNat ≤ mask s.width.toNat ∧
    (s.mode = true → ∀ b, b < 256 → ∃ e : Word, s.table.read b = some e ∧ e.toNat ≤ mask s.width.toNat) ∧
    ∀ (i : Instr) (t : State) (hdr v : Word),
      i.opcode = 0x02#8 ∨ i.opcode = 0x03#8 ∨ i.opcode = 0x04#8 ∨ i.opcode = 0x08#8 →
      Sys2Proof.Machine.exec i s = .next t → t.rsp = s.rsp ++ [hdr, v] → v.toNat ≤ mask s.width.toNat

/-- No step from a state that meets the invariant faults, and every state a host can bring the block to meets
it (rules R23, R102). The fault that is ruled out, reading an absent table entry, is the model's choice, log
entry 2. -/
def Obligations.ReachableStatesAreSafe : Prop :=
  (∀ s : State, Inv s → Safe s) ∧ ∀ s : State, Reachable s → Inv s ∧ Safe s

/-- In every reachable state a complete frame is answered by the next step, which consumes exactly that frame
and adds at least one response word (rules R32, R39), provided the host is taking response words or few are
waiting (rules R124, R127). That a host with `rsp_ready` at 1 takes them before the block needs the room, and
that the room is one constant, are the model's choices, log entry 6. -/
def Obligations.EveryCompleteFrameIsAnswered : Prop :=
  ∀ (s : State) (h : Word) (ops rest : List Word), Reachable s → s.rst = false →
    s.rspReady = true ∨ s.rsp.length ≤ Config.responseDepth →
    s.cmd = h :: ops ++ rest → ops.length + 1 = framelen h →
      ∃ t ws, Sys2Proof.Machine.step s = .next t ∧ t.cmd = rest ∧ t.rsp = s.rsp ++ ws ∧ ws ≠ []

/-- Rule R124: a host that holds `rsp_ready` at 0 stalls the block, and nothing is dropped. With more untaken
response words than the block buffers no command is executed and, beyond the words it takes ahead, no command
word is taken; every frame executed before adds to the untaken words, so this point is reached. No step loses
a command word or a response word, a stalled block runs its next command once `rsp_ready` is 1, and the
oldest response word is taken first. What R124 does not say is the model's choice: that the two depths are
constants, that a stall is a step that holds the state, and where in a stall words still move (log entry 6);
that a block that is not stalled takes every command word without bound (log entries 3 and 6); and that a
stalled block runs its next command as soon as `rsp_ready` is 1, the untaken words still there (log entry 6,
unsafe). -/
def Obligations.BackPressureStallsTheBlockAndDropsNothing : Prop :=
  ∀ s : State, s.rst = false →
    (s.rspReady = false → Config.responseDepth < s.rsp.length →
      (decode s.cmd ≠ .incomplete → Sys2Proof.Machine.step s = .next s) ∧
      (Config.commandDepth ≤ s.cmd.length → ∀ w ws, sendCommand (w :: ws) s = none) ∧
      (∀ (i : Instr) (rest : List Word), decode s.cmd = .command i rest →
        Sys2Proof.Machine.step (driveReady true s)
          = Sys2Proof.Machine.exec i { s with cmd := rest, rspReady := true })) ∧
    (∀ t, Sys2Proof.Machine.step s = .next t →
      ∃ taken added, s.cmd = taken ++ t.cmd ∧ t.rsp = s.rsp ++ added ∧ (taken ≠ [] → added ≠ []) ∧
        (s.rspReady = false → taken ≠ [] → s.rsp.length ≤ Config.responseDepth)) ∧
    (s.rspReady = true ∨ s.rsp.length ≤ Config.responseDepth →
      ∀ ws, sendCommand ws s = some { s with cmd := s.cmd ++ ws }) ∧
    (∀ w ws, s.rsp = w :: ws →
      takeResponse s = if s.rspReady then some (w, { s with rsp := ws }) else none)

/-! ## The algorithm -/

/-- Rule R9: `mask(w)` has bits `w-1` down to 0 set and no others, `mask(32)` included. -/
def Obligations.MaskSetsExactlyTheLowBits : Prop :=
  (∀ w, w ≤ 32 → mask w + 1 = 2 ^ w ∧ ∀ k, (mask w).testBit k = decide (k < w)) ∧
  mask 0 = 0 ∧ mask 8 = 0xFF ∧ mask 16 = 0xFFFF ∧ mask 24 = 0xFFFFFF ∧ mask 32 = 0xFFFFFFFF

/-- Rule R68 (a) to (e): `reflect` is an involution, the identity for 0 and 1 bits, keeps a masked value
masked, reads only the low bits there, passes the higher bits through, distributes over exclusive-or, and
for 32 bits reverses the whole word. -/
def Obligations.ReflectIsALinearInvolution : Prop :=
  ∀ v n, v < 2 ^ 32 → n ≤ 32 →
    reflect (reflect v n) n = v ∧
    reflect v 0 = v ∧ reflect v 1 = v ∧
    (∀ u, u < 2 ^ 32 → u &&& mask n = v &&& mask n → reflect u n &&& mask n = reflect v n &&& mask n) ∧
    (∀ k, n ≤ k → (reflect v n).testBit k = v.testBit k) ∧
    (v ≤ mask n → reflect v n ≤ mask n) ∧
    (∀ u, u < 2 ^ 32 → reflect (u ^^^ v) n = reflect u n ^^^ reflect v n) ∧
    (∀ k, k < 32 → (reflect v 32).testBit k = v.testBit (31 - k))

/-- Rule R74 (a) to (e) and its last sentence: the shape of every table, and that each entry is the bitwise
algorithm run on its byte. -/
def Obligations.TableIsLinearInItsIndex : Prop :=
  ∀ poly w, w = 8 ∨ w = 16 ∨ w = 24 ∨ w = 32 →
    (buildTable poly w).length = 256 ∧
    ∃ T : Nat → Nat,
      (∀ b, b < 256 → (buildTable poly w)[b]? = some (BitVec.ofNat 32 (T b)) ∧ T b ≤ mask w) ∧
      T 0 = 0 ∧ T 1 = poly &&& mask w ∧
      (∀ a b, a < 256 → b < 256 → T (a ^^^ b) = T a ^^^ T b) ∧
      ((poly &&& mask w).testBit (w - 1) = false → T 2 = ((poly &&& mask w) <<< 1) &&& mask w) ∧
      ((poly &&& mask w).testBit (w - 1) = true →
        T 2 = (((poly &&& mask w) <<< 1) ^^^ (poly &&& mask w)) &&& mask w) ∧
      ∀ b, b < 256 → T b = advanceBitwise (b <<< (w - 8)) (poly &&& mask w) w

/-- The bitwise algorithm said without its loop (rules R72, R80, with R74 (a) to (e) and R83): the table
entries follow from entry 1 by shifting and exclusive-or, and one byte of the bitwise strategy is the register
shifted by 8 with the entry of its top byte XORed in. -/
def Obligations.BitwiseStepFollowsFromShiftAndXor : Prop :=
  ∀ poly w, w = 8 ∨ w = 16 ∨ w = 24 ∨ w = 32 →
    ∃ T : Nat → Nat,
      T 0 = 0 ∧ T 1 = poly % 2 ^ w ∧
      (∀ b, b < 128 → T (2 * b) = if (T b).testBit (w - 1) then (2 * T b) % 2 ^ w ^^^ poly % 2 ^ w
        else 2 * T b) ∧
      (∀ b, b < 128 → T (2 * b + 1) = T (2 * b) ^^^ poly % 2 ^ w) ∧
      ∀ r, r < 2 ^ w →
        advanceBitwise r (poly % 2 ^ w) w = (r * 2 ^ 8) % 2 ^ w ^^^ T (r / 2 ^ (w - 8))

/-- Rule R83: the table-driven and the bitwise strategy agree on every register value, and so, with the
table of rule R23, do the byte step and every command but `TREAD`: two initialized states that differ
only in strategy and table give the same answers and stay so. -/
def Obligations.StrategiesAreEquivalent : Prop :=
  (∀ w poly r, w = 8 ∨ w = 16 ∨ w = 24 ∨ w = 32 → r ≤ mask w → ∀ t : Memory,
    (∀ b, b < 256 → t.read b = (buildTable poly w)[b]?) →
      advanceTable r t w = some (advanceBitwise r (poly &&& mask w) w)) ∧
  (∀ (s s' : State), Inv s → Inv s' → s.fsm ≠ .uninitialized → SameButStrategy s s' →
    (∀ (b : Byte) (r : Nat), r ≤ mask s.width.toNat → byteStep s r b = byteStep s' r b) ∧
    ∀ i : Instr, i.opcode ≠ 0x08#8 →
      ∃ t t', Sys2Proof.Machine.exec i s = .next t ∧ Sys2Proof.Machine.exec i s' = .next t' ∧
        t'.rsp = t.rsp ∧ SameButStrategy t t')

/-- Rule R86 (a): however a stream is cut into chunks, empty ones included, it leaves the state of one
`UPDATE` of the whole, but for the answers given on the way. -/
def Obligations.ChunkingDoesNotChangeTheStream : Prop :=
  ∀ (chunks : List (List Byte)) (s : State), Inv s → s.fsm ≠ .uninitialized →
    ∃ t u, execAll (chunks.map Instr.update) s = .next t ∧
      Sys2Proof.Machine.exec (.update chunks.flatten) s = .next u ∧
      { t with rsp := u.rsp } = u

/-- Rule R88: after `RESET`, and after a fresh `INIT`, a `FINALIZE` with no `UPDATE` between answers the
initial value through the output transform; for CRC-32 that is 0. -/
def Obligations.ResetThenFinalizeAnswersTheInitialValue : Prop :=
  (∀ s : State, s.fsm ≠ .uninitialized →
    ∃ t, execAll [.reset, .finalize] s = .next t ∧
      t.rsp = s.rsp ++ [0x03000000#32, s.initv, 0x04000000#32,
        BitVec.ofNat 32 (finalizeValue s.initv.toNat s.width.toNat s.refout s.xorout.toNat)]) ∧
  (∀ (width : BitVec 8) (refin refout tmode : Bool) (poly initv xorout check : Word) (s : State),
    legalWidth width = true →
      ∃ t v, execAll [.init width refin refout tmode poly initv xorout check, .finalize] s = .next t ∧
        t.rsp = s.rsp ++ [0x01000000#32, 0x04000000#32, v] ∧
        v = BitVec.ofNat 32 (finalizeValue (initv.toNat % 2 ^ width.toNat) width.toNat refout
              (xorout.toNat % 2 ^ width.toNat)) ∧
        ∃ t', execAll [.init width refin refout tmode poly initv xorout check, .reset, .finalize] s = .next t' ∧
          t'.rsp = s.rsp ++ [0x01000000#32, 0x03000000#32, t.initv, 0x04000000#32, v]) ∧
  finalizeValue 0xFFFFFFFF 32 true 0xFFFFFFFF = 0

/-- Rules R91 and R92: `FINALIZE` is idempotent, and an `UPDATE` after it continues from the register as it
was before, as if it had not been sent. -/
def Obligations.FinalizeDoesNotEndTheStream : Prop :=
  ∀ (bytes : List Byte) (s t : State), Inv s → s.fsm ≠ .uninitialized →
    Sys2Proof.Machine.exec .finalize s = .next t →
      (∃ ws, t.rsp = s.rsp ++ ws ∧ Sys2Proof.Machine.exec .finalize t = .next { t with rsp := t.rsp ++ ws }) ∧
      ∃ u u', Sys2Proof.Machine.exec (.update bytes) t = .next u ∧
        Sys2Proof.Machine.exec (.update bytes) s = .next u' ∧ u.reg = u'.reg ∧
        (bytes ≠ [] → { u with rsp := u'.rsp } = u')

/-- Rule R65 and rule R86 (b), (c): the value of `CRC chunk` is the output transform of the bitwise register
of the chunk from the initial value; it depends on the descriptor and the chunk alone, not on the stream
in progress. -/
def Obligations.CrcOfAChunkDependsOnDescriptorAndBytes : Prop :=
  ∀ (chunk : List Byte) (s : State), Inv s → s.fsm ≠ .uninitialized →
    ∃ t answers, execAll (crcCommands chunk) s = .next t ∧
      t.rsp = s.rsp ++ answers ++ [0x04000000#32,
        BitVec.ofNat 32 (finalizeValue (bitwiseRegister s s.initv.toNat chunk) s.width.toNat s.refout
          s.xorout.toNat)]
end

