-- ==== Sys2Proof/Laws/Algorithm.lean ====
section
/-! SUPPORT. The pure functions of the rules: bits of the mask and of `reflect`, bounds of every masked
value, and linearity of the shift-and-XOR loop over exclusive-or. -/

namespace Sys2Proof.Machine

/-! ## The mask (rule R9) -/

theorem mask_testBit (w k : Nat) : (mask w).testBit k = decide (k < w) := by
  simp [mask, Nat.testBit_two_pow_sub_one]

theorem and_mask (v w : Nat) : v &&& mask w = v % 2 ^ w := Nat.and_two_pow_sub_one_eq_mod v w

theorem le_mask_iff (v w : Nat) : v ≤ mask w ↔ v < 2 ^ w := by
  have := Nat.two_pow_pos w
  unfold mask
  omega

theorem and_mask_le (v w : Nat) : v &&& mask w ≤ mask w := Nat.and_le_right

theorem and_mask_lt (v w : Nat) : v &&& mask w < 2 ^ w := (le_mask_iff _ _).1 (and_mask_le v w)

theorem and_mask_of_lt {v w : Nat} (h : v < 2 ^ w) : v &&& mask w = v := by
  rw [and_mask, Nat.mod_eq_of_lt h]

/-- A masked value of at most 32 bits is unchanged in a word. -/
theorem toNat_ofNat_of_le_mask {v w : Nat} (hw : w ≤ 32) (hv : v ≤ mask w) : (BitVec.ofNat 32 v).toNat = v := by
  have h1 := (le_mask_iff v w).1 hv
  have h2 : 2 ^ w ≤ 2 ^ 32 := Nat.pow_le_pow_right (by omega) hw
  simp only [BitVec.toNat_ofNat]
  omega

/-! ## The widths (rules R6, R14) -/

theorem legalWidth_iff (w : BitVec 8) :
    legalWidth w = true ↔ w.toNat = 8 ∨ w.toNat = 16 ∨ w.toNat = 24 ∨ w.toNat = 32 := by
  simp only [legalWidth, Bool.or_eq_true, beq_iff_eq, ← BitVec.toNat_inj, BitVec.toNat_ofNat, Nat.reducePow,
    Nat.reduceMod]
  omega

theorem legalWidth_bounds {w : BitVec 8} (h : legalWidth w = true) : 8 ≤ w.toNat ∧ w.toNat ≤ 32 := by
  have := (legalWidth_iff w).1 h
  omega

theorem maskOperand_toNat {w : BitVec 8} (h : legalWidth w = true) (v : Word) :
    (maskOperand w v).toNat = v.toNat % 2 ^ w.toNat := by
  rw [maskOperand, toNat_ofNat_of_le_mask (legalWidth_bounds h).2 (and_mask_le _ _), and_mask]

theorem maskOperand_le_mask {w : BitVec 8} (h : legalWidth w = true) (v : Word) :
    (maskOperand w v).toNat ≤ mask w.toNat := by
  rw [maskOperand, toNat_ofNat_of_le_mask (legalWidth_bounds h).2 (and_mask_le _ _)]
  exact and_mask_le _ _

/-! ## `reflect` (rule R67) -/

/-- The loop of `reflect` after its first `m` iterations. -/
theorem reflect_loop_testBit (v n r m k : Nat) (hm : m ≤ n) :
    ((List.range m).foldl (fun r i => if v.testBit i then r ||| (1 <<< (n - 1 - i)) else r) r).testBit k
      = (r.testBit k || (decide (k < n) && decide (n - 1 - k < m) && v.testBit (n - 1 - k))) := by
  induction m with
  | zero => simp
  | succ m ih =>
    rw [List.range_succ, List.foldl_append, List.foldl_cons, List.foldl_nil]
    have ih := ih (by omega)
    by_cases hv : v.testBit m
    · rw [if_pos hv, Nat.testBit_or, ih, Nat.one_shiftLeft, Nat.testBit_two_pow]
      by_cases hk : n - 1 - m = k
      · have : n - 1 - k = m := by omega
        simp [hk, this, hv, show k < n by omega]
      · by_cases hkn : k < n
        · have : n - 1 - k ≠ m := by omega
          have h2 : decide (n - 1 - k < m + 1) = decide (n - 1 - k < m) := by
            simp only [decide_eq_decide]; omega
          rw [h2]
          simp [hk]
        · simp [hk, hkn]
    · rw [if_neg hv, ih]
      by_cases hk : n - 1 - k = m
      · simp [hk, hv]
      · have h2 : decide (n - 1 - k < m + 1) = decide (n - 1 - k < m) := by
          simp only [decide_eq_decide]; omega
        rw [h2]

/-- Bit `k` of the reflected value: bit `n-1-k` below `n`, and the bit itself from `n` up (rule R67). -/
theorem reflect_testBit {v n : Nat} (hv : v < 2 ^ 32) (k : Nat) :
    (reflect v n).testBit k = if k < n then v.testBit (n - 1 - k) else v.testBit k := by
  have h32 : (0xFFFFFFFF : Nat) = mask 32 := by decide
  rw [reflect, reflect_loop_testBit v n _ n k (Nat.le_refl n), h32, Nat.testBit_and, Nat.testBit_xor,
    mask_testBit, mask_testBit]
  by_cases hk : k < n
  · by_cases h32k : k < 32
    · simp [hk, h32k, show n - 1 - k < n by omega]
    · have : v.testBit k = false := Nat.testBit_lt_two_pow (by
        exact Nat.lt_of_lt_of_le hv (Nat.pow_le_pow_right (by omega) (by omega)))
      simp [hk, this, show n - 1 - k < n by omega]
  · by_cases h32k : k < 32
    · simp [hk, h32k]
    · have : v.testBit k = false := Nat.testBit_lt_two_pow (by
        exact Nat.lt_of_lt_of_le hv (Nat.pow_le_pow_right (by omega) (by omega)))
      simp [hk, this]

/-- `reflect` stays within any `m` bits that hold the value and the reversed field. -/
theorem reflect_lt {v n m : Nat} (hm : m ≤ 32) (hn : n ≤ m) (hv : v < 2 ^ m) : reflect v n < 2 ^ m := by
  have hv32 : v < 2 ^ 32 := Nat.lt_of_lt_of_le hv (Nat.pow_le_pow_right (by omega) hm)
  apply Nat.lt_pow_two_of_testBit
  intro i hi
  rw [reflect_testBit hv32, if_neg (by omega)]
  exact Nat.testBit_lt_two_pow (Nat.lt_of_lt_of_le hv (Nat.pow_le_pow_right (by omega) hi))

/-! ## The shift-and-XOR loop (rule R72) -/

theorem bitStep_le (poly w r : Nat) : bitStep poly w r ≤ mask w := by
  unfold bitStep
  split <;> exact and_mask_le _ _

/-- One iteration, split into the shift and the conditional XOR (the form of rule R83's proof). -/
theorem bitStep_eq (poly w r : Nat) :
    bitStep poly w r
      = ((r <<< 1) &&& mask w) ^^^ (if r.testBit (w - 1) then poly &&& mask w else 0) := by
  unfold bitStep
  split
  · exact Nat.and_xor_distrib_right
  · simp

theorem bitStep_xor (poly w a b : Nat) :
    bitStep poly w (a ^^^ b) = bitStep poly w a ^^^ bitStep poly w b := by
  rw [bitStep_eq, bitStep_eq, bitStep_eq, Nat.testBit_xor, Nat.shiftLeft_xor_distrib,
    Nat.and_xor_distrib_right]
  generalize a <<< 1 &&& mask w = A, b <<< 1 &&& mask w = B, poly &&& mask w = P
  have comm : ∀ x y z : Nat, (x ^^^ y) ^^^ z = (x ^^^ z) ^^^ y := fun x y z => by
    rw [Nat.xor_assoc, Nat.xor_comm y z, Nat.xor_assoc]
  cases a.testBit (w - 1) <;> cases b.testBit (w - 1)
  · simp
  · simp [Nat.xor_assoc]
  · simpa using comm A B P
  · have : (A ^^^ P) ^^^ (B ^^^ P) = A ^^^ B := by
      rw [Nat.xor_assoc, Nat.xor_comm B P, ← Nat.xor_assoc P P B, Nat.xor_self, Nat.zero_xor]
    simp [this]

theorem bitSteps_xor (poly w k a b : Nat) :
    bitSteps poly w k (a ^^^ b) = bitSteps poly w k a ^^^ bitSteps poly w k b := by
  induction k generalizing a b with
  | zero => rfl
  | succ k ih => rw [bitSteps, bitSteps, bitSteps, bitStep_xor, ih]

theorem bitSteps_le (poly w k r : Nat) (hr : r ≤ mask w) : bitSteps poly w k r ≤ mask w := by
  induction k generalizing r with
  | zero => exact hr
  | succ k ih => exact ih _ (bitStep_le poly w r)

/-- `bitstep8` keeps the masking invariant (rules R72, R93). -/
theorem bitstep8_le (r poly w : Nat) (hr : r ≤ mask w) : bitstep8 r poly w ≤ mask w :=
  bitSteps_le poly w _ r hr

/-- `bitstep8` is linear over exclusive-or (rule R83). -/
theorem bitstep8_xor (a b poly w : Nat) :
    bitstep8 (a ^^^ b) poly w = bitstep8 a poly w ^^^ bitstep8 b poly w := bitSteps_xor poly w _ a b

/-! ## The table (rule R73) -/

theorem tableEntry_le (poly w b : Nat) : tableEntry poly w b ≤ mask w := bitstep8_le _ _ _ (and_mask_le _ _)

@[simp] theorem buildTable_length (poly w : Nat) : (buildTable poly w).length = Config.tableSize := by
  simp [buildTable]

theorem buildTable_getElem? (poly w b : Nat) (hb : b < Config.tableSize) :
    (buildTable poly w)[b]? = some (BitVec.ofNat 32 (tableEntry poly w b)) := by
  simp [buildTable, hb]

/-! ## The byte step and the output transform (rules R79 to R82, R90) -/

theorem fold_le (r b : Nat) (refin : Bool) (w : Nat) : fold r b refin w ≤ mask w := and_mask_le _ _

theorem advanceBitwise_le (r poly w : Nat) (hr : r ≤ mask w) : advanceBitwise r poly w ≤ mask w :=
  bitstep8_le r poly w hr

theorem advanceTable_le {r : Nat} {t : Memory} {w r' : Nat} (h : advanceTable r t w = some r') : r' ≤ mask w := by
  rw [advanceTable, Option.map_eq_some_iff] at h
  obtain ⟨e, -, rfl⟩ := h
  exact and_mask_le _ _

theorem finalizeValue_le (r w : Nat) (refout : Bool) (xorout : Nat) :
    finalizeValue r w refout xorout ≤ mask w := and_mask_le _ _

theorem byteStep_le {s : State} {r r' : Nat} {b : Byte} (h : byteStep s r b = some r') :
    r' ≤ mask s.width.toNat := by
  unfold byteStep at h
  split at h
  · exact advanceTable_le h
  · simp only [Option.some.injEq] at h
    subst h
    exact advanceBitwise_le _ _ _ (fold_le _ _ _ _)

/-- A chunk keeps the masking invariant (rule R93). -/
theorem foldBytes_le {s : State} {r r' : Nat} {bytes : List Byte} (hr : r ≤ mask s.width.toNat)
    (h : foldBytes s r bytes = some r') : r' ≤ mask s.width.toNat := by
  induction bytes generalizing r with
  | nil =>
    simp only [foldBytes, Option.some.injEq] at h
    exact h ▸ hr
  | cons b bs ih =>
    rw [foldBytes, Option.bind_eq_some_iff] at h
    obtain ⟨r1, h1, h2⟩ := h
    exact ih (byteStep_le h1) h2

/-- A chunk may be cut anywhere (rule R86). -/
theorem foldBytes_append (s : State) (r : Nat) (as bs : List Byte) :
    foldBytes s r (as ++ bs) = (foldBytes s r as).bind fun r' => foldBytes s r' bs := by
  induction as generalizing r with
  | nil => rfl
  | cons a as ih =>
    rw [List.cons_append, foldBytes, foldBytes, Option.bind_assoc]
    exact Option.bind_congr fun r' _ => ih r'

/-- The byte steps read `WIDTH`, `REFIN`, `MODE`, `POLY` and `TABLE` and nothing else (rule R25). -/
theorem foldBytes_congr {s t : State} (hw : t.width = s.width) (hr : t.refin = s.refin) (hm : t.mode = s.mode)
    (hp : t.poly = s.poly) (ht : t.table = s.table) (r : Nat) (bytes : List Byte) :
    foldBytes t r bytes = foldBytes s r bytes := by
  induction bytes generalizing r with
  | nil => rfl
  | cons b bs ih => simp only [foldBytes, byteStep, hw, hr, hm, hp, ht, ih]

end Sys2Proof.Machine
end

