-- ==== Sys2Proof/Laws/Frames.lean ====
section
/-! SUPPORT. Frames: packing and unpacking of chunk bytes, the opcode and the length of an encoded header. -/

namespace Sys2Proof

/-! ## Chunk bytes (rule R35) -/

@[simp] theorem wordBytes_length (w : Word) : (wordBytes w).length = 4 := rfl

theorem wordBytes_bytesWord (b0 b1 b2 b3 : Byte) : wordBytes (bytesWord b0 b1 b2 b3) = [b0, b1, b2, b3] := by
  simp only [wordBytes, bytesWord, List.cons.injEq, and_true]
  refine ⟨?_, ?_, ?_, ?_⟩ <;>
  · apply BitVec.eq_of_getLsbD_eq
    intro k hk
    simp only [BitVec.getLsbD_extractLsb', BitVec.getLsbD_append]
    interval_cases k <;> simp

theorem flatMap_wordBytes_length (ws : List Word) : (ws.flatMap wordBytes).length = 4 * ws.length := by
  induction ws with
  | nil => rfl
  | cons w ws ih => simp only [List.flatMap_cons, List.length_append, wordBytes_length, ih, List.length_cons]; omega

theorem packBytes_length (bytes : List Byte) : (packBytes bytes).length = (bytes.length + 3) / 4 := by
  induction bytes using packBytes.induct with
  | case1 => rfl
  | case2 => simp [packBytes]
  | case3 => simp [packBytes]
  | case4 => simp [packBytes]
  | case5 b0 b1 b2 b3 rest ih =>
    rw [packBytes, List.length_cons, ih]
    simp only [List.length_cons]
    omega

/-- The lanes of a packed chunk: its bytes, then pad lanes of 0 (rules R35, R66). -/
theorem flatMap_wordBytes_packBytes (bytes : List Byte) :
    (packBytes bytes).flatMap wordBytes
      = bytes ++ List.replicate (4 * ((bytes.length + 3) / 4) - bytes.length) 0#8 := by
  induction bytes using packBytes.induct with
  | case1 => rfl
  | case2 b0 => simp [packBytes, wordBytes_bytesWord]
  | case3 b0 b1 => simp [packBytes, wordBytes_bytesWord]
  | case4 b0 b1 b2 => simp [packBytes, wordBytes_bytesWord]
  | case5 b0 b1 b2 b3 rest ih =>
    rw [packBytes, List.flatMap_cons, wordBytes_bytesWord, ih]
    simp only [List.length_cons, List.cons_append, List.nil_append, List.cons.injEq, true_and,
      List.append_cancel_left_eq]
    congr 1
    omega

/-- Unpacking the packed chunk gives the chunk. -/
theorem unpackBytes_packBytes (bytes : List Byte) : unpackBytes (packBytes bytes) bytes.length = bytes := by
  rw [unpackBytes, flatMap_wordBytes_packBytes, List.take_left']
  rfl

theorem unpackBytes_length (data : List Word) (len : Nat) (h : len ≤ 4 * data.length) :
    (unpackBytes data len).length = len := by
  rw [unpackBytes, List.length_take, flatMap_wordBytes_length]
  omega

/-! ## Headers (rules R47 to R54) -/

theorem opcodeOf_append (opc : BitVec 8) (low : BitVec 24) : opcodeOf (opc ++ low : Word) = opc := by
  apply BitVec.eq_of_getLsbD_eq
  intro k hk
  simp only [opcodeOf, BitVec.getLsbD_extractLsb', BitVec.getLsbD_append]
  simp [hk]

theorem opcodeOf_eq (h : Word) : opcodeOf h = BitVec.ofNat 8 (h.toNat / 2 ^ 24) := by
  apply BitVec.eq_of_toNat_eq
  simp [opcodeOf, BitVec.extractLsb'_toNat, Nat.shiftRight_eq_div_pow]

/-- The opcode an encoder puts into the header is the command's (rules R47, R55). -/
theorem opcodeOf_encodeHeader (i : Instr) : opcodeOf (encodeHeader i) = i.opcode := by
  cases i <;>
  · apply BitVec.eq_of_getLsbD_eq
    intro k hk
    simp only [encodeHeader, Instr.opcode, opcodeOf, BitVec.getLsbD_extractLsb', BitVec.getLsbD_append]
    interval_cases k <;> simp

end Sys2Proof
end

