-- ==== Sys2Proof/Laws/State.lean ====
section
/-! SUPPORT. One lemma per field of `State` and update of the state, so that no proof unfolds an update. -/

namespace Sys2Proof.Machine

@[simp] theorem State.emit_fsm (s : State) (ws : List Word) : (s.emit ws).fsm = s.fsm := rfl
@[simp] theorem State.emit_width (s : State) (ws : List Word) : (s.emit ws).width = s.width := rfl
@[simp] theorem State.emit_poly (s : State) (ws : List Word) : (s.emit ws).poly = s.poly := rfl
@[simp] theorem State.emit_initv (s : State) (ws : List Word) : (s.emit ws).initv = s.initv := rfl
@[simp] theorem State.emit_xorout (s : State) (ws : List Word) : (s.emit ws).xorout = s.xorout := rfl
@[simp] theorem State.emit_refin (s : State) (ws : List Word) : (s.emit ws).refin = s.refin := rfl
@[simp] theorem State.emit_refout (s : State) (ws : List Word) : (s.emit ws).refout = s.refout := rfl
@[simp] theorem State.emit_check (s : State) (ws : List Word) : (s.emit ws).check = s.check := rfl
@[simp] theorem State.emit_mode (s : State) (ws : List Word) : (s.emit ws).mode = s.mode := rfl
@[simp] theorem State.emit_reg (s : State) (ws : List Word) : (s.emit ws).reg = s.reg := rfl
@[simp] theorem State.emit_table (s : State) (ws : List Word) : (s.emit ws).table = s.table := rfl
@[simp] theorem State.emit_cmd (s : State) (ws : List Word) : (s.emit ws).cmd = s.cmd := rfl
@[simp] theorem State.emit_rsp (s : State) (ws : List Word) : (s.emit ws).rsp = s.rsp ++ ws := rfl
@[simp] theorem State.emit_rst (s : State) (ws : List Word) : (s.emit ws).rst = s.rst := rfl
@[simp] theorem State.emit_rspReady (s : State) (ws : List Word) : (s.emit ws).rspReady = s.rspReady := rfl

@[simp] theorem State.withCommands_fsm (s : State) (ws : List Word) : (s.withCommands ws).fsm = s.fsm := rfl
@[simp] theorem State.withCommands_width (s : State) (ws : List Word) : (s.withCommands ws).width = s.width := rfl
@[simp] theorem State.withCommands_poly (s : State) (ws : List Word) : (s.withCommands ws).poly = s.poly := rfl
@[simp] theorem State.withCommands_initv (s : State) (ws : List Word) : (s.withCommands ws).initv = s.initv := rfl
@[simp] theorem State.withCommands_xorout (s : State) (ws : List Word) : (s.withCommands ws).xorout = s.xorout := rfl
@[simp] theorem State.withCommands_refin (s : State) (ws : List Word) : (s.withCommands ws).refin = s.refin := rfl
@[simp] theorem State.withCommands_refout (s : State) (ws : List Word) : (s.withCommands ws).refout = s.refout := rfl
@[simp] theorem State.withCommands_check (s : State) (ws : List Word) : (s.withCommands ws).check = s.check := rfl
@[simp] theorem State.withCommands_mode (s : State) (ws : List Word) : (s.withCommands ws).mode = s.mode := rfl
@[simp] theorem State.withCommands_reg (s : State) (ws : List Word) : (s.withCommands ws).reg = s.reg := rfl
@[simp] theorem State.withCommands_table (s : State) (ws : List Word) : (s.withCommands ws).table = s.table := rfl
@[simp] theorem State.withCommands_cmd (s : State) (ws : List Word) : (s.withCommands ws).cmd = ws := rfl
@[simp] theorem State.withCommands_rsp (s : State) (ws : List Word) : (s.withCommands ws).rsp = s.rsp := rfl
@[simp] theorem State.withCommands_rst (s : State) (ws : List Word) : (s.withCommands ws).rst = s.rst := rfl
@[simp] theorem State.withCommands_rspReady (s : State) (ws : List Word) : (s.withCommands ws).rspReady = s.rspReady := rfl

@[simp] theorem State.withFsm_fsm (s : State) (f : Fsm) : (s.withFsm f).fsm = f := rfl
@[simp] theorem State.withFsm_width (s : State) (f : Fsm) : (s.withFsm f).width = s.width := rfl
@[simp] theorem State.withFsm_poly (s : State) (f : Fsm) : (s.withFsm f).poly = s.poly := rfl
@[simp] theorem State.withFsm_initv (s : State) (f : Fsm) : (s.withFsm f).initv = s.initv := rfl
@[simp] theorem State.withFsm_xorout (s : State) (f : Fsm) : (s.withFsm f).xorout = s.xorout := rfl
@[simp] theorem State.withFsm_refin (s : State) (f : Fsm) : (s.withFsm f).refin = s.refin := rfl
@[simp] theorem State.withFsm_refout (s : State) (f : Fsm) : (s.withFsm f).refout = s.refout := rfl
@[simp] theorem State.withFsm_check (s : State) (f : Fsm) : (s.withFsm f).check = s.check := rfl
@[simp] theorem State.withFsm_mode (s : State) (f : Fsm) : (s.withFsm f).mode = s.mode := rfl
@[simp] theorem State.withFsm_reg (s : State) (f : Fsm) : (s.withFsm f).reg = s.reg := rfl
@[simp] theorem State.withFsm_table (s : State) (f : Fsm) : (s.withFsm f).table = s.table := rfl
@[simp] theorem State.withFsm_cmd (s : State) (f : Fsm) : (s.withFsm f).cmd = s.cmd := rfl
@[simp] theorem State.withFsm_rsp (s : State) (f : Fsm) : (s.withFsm f).rsp = s.rsp := rfl
@[simp] theorem State.withFsm_rst (s : State) (f : Fsm) : (s.withFsm f).rst = s.rst := rfl
@[simp] theorem State.withFsm_rspReady (s : State) (f : Fsm) : (s.withFsm f).rspReady = s.rspReady := rfl

@[simp] theorem State.withReg_fsm (s : State) (r : Word) : (s.withReg r).fsm = s.fsm := rfl
@[simp] theorem State.withReg_width (s : State) (r : Word) : (s.withReg r).width = s.width := rfl
@[simp] theorem State.withReg_poly (s : State) (r : Word) : (s.withReg r).poly = s.poly := rfl
@[simp] theorem State.withReg_initv (s : State) (r : Word) : (s.withReg r).initv = s.initv := rfl
@[simp] theorem State.withReg_xorout (s : State) (r : Word) : (s.withReg r).xorout = s.xorout := rfl
@[simp] theorem State.withReg_refin (s : State) (r : Word) : (s.withReg r).refin = s.refin := rfl
@[simp] theorem State.withReg_refout (s : State) (r : Word) : (s.withReg r).refout = s.refout := rfl
@[simp] theorem State.withReg_check (s : State) (r : Word) : (s.withReg r).check = s.check := rfl
@[simp] theorem State.withReg_mode (s : State) (r : Word) : (s.withReg r).mode = s.mode := rfl
@[simp] theorem State.withReg_reg (s : State) (r : Word) : (s.withReg r).reg = r := rfl
@[simp] theorem State.withReg_table (s : State) (r : Word) : (s.withReg r).table = s.table := rfl
@[simp] theorem State.withReg_cmd (s : State) (r : Word) : (s.withReg r).cmd = s.cmd := rfl
@[simp] theorem State.withReg_rsp (s : State) (r : Word) : (s.withReg r).rsp = s.rsp := rfl
@[simp] theorem State.withReg_rst (s : State) (r : Word) : (s.withReg r).rst = s.rst := rfl
@[simp] theorem State.withReg_rspReady (s : State) (r : Word) : (s.withReg r).rspReady = s.rspReady := rfl

@[simp] theorem State.withTable_fsm (s : State) (m : Memory) : (s.withTable m).fsm = s.fsm := rfl
@[simp] theorem State.withTable_width (s : State) (m : Memory) : (s.withTable m).width = s.width := rfl
@[simp] theorem State.withTable_poly (s : State) (m : Memory) : (s.withTable m).poly = s.poly := rfl
@[simp] theorem State.withTable_initv (s : State) (m : Memory) : (s.withTable m).initv = s.initv := rfl
@[simp] theorem State.withTable_xorout (s : State) (m : Memory) : (s.withTable m).xorout = s.xorout := rfl
@[simp] theorem State.withTable_refin (s : State) (m : Memory) : (s.withTable m).refin = s.refin := rfl
@[simp] theorem State.withTable_refout (s : State) (m : Memory) : (s.withTable m).refout = s.refout := rfl
@[simp] theorem State.withTable_check (s : State) (m : Memory) : (s.withTable m).check = s.check := rfl
@[simp] theorem State.withTable_mode (s : State) (m : Memory) : (s.withTable m).mode = s.mode := rfl
@[simp] theorem State.withTable_reg (s : State) (m : Memory) : (s.withTable m).reg = s.reg := rfl
@[simp] theorem State.withTable_table (s : State) (m : Memory) : (s.withTable m).table = m := rfl
@[simp] theorem State.withTable_cmd (s : State) (m : Memory) : (s.withTable m).cmd = s.cmd := rfl
@[simp] theorem State.withTable_rsp (s : State) (m : Memory) : (s.withTable m).rsp = s.rsp := rfl
@[simp] theorem State.withTable_rst (s : State) (m : Memory) : (s.withTable m).rst = s.rst := rfl
@[simp] theorem State.withTable_rspReady (s : State) (m : Memory) : (s.withTable m).rspReady = s.rspReady := rfl

@[simp] theorem State.withDescriptor_fsm (s : State) (w : BitVec 8) (ri ro tm : Bool) (p i x c : Word) : (s.withDescriptor w ri ro tm p i x c).fsm = s.fsm := rfl
@[simp] theorem State.withDescriptor_width (s : State) (w : BitVec 8) (ri ro tm : Bool) (p i x c : Word) : (s.withDescriptor w ri ro tm p i x c).width = w := rfl
@[simp] theorem State.withDescriptor_poly (s : State) (w : BitVec 8) (ri ro tm : Bool) (p i x c : Word) : (s.withDescriptor w ri ro tm p i x c).poly = p := rfl
@[simp] theorem State.withDescriptor_initv (s : State) (w : BitVec 8) (ri ro tm : Bool) (p i x c : Word) : (s.withDescriptor w ri ro tm p i x c).initv = i := rfl
@[simp] theorem State.withDescriptor_xorout (s : State) (w : BitVec 8) (ri ro tm : Bool) (p i x c : Word) : (s.withDescriptor w ri ro tm p i x c).xorout = x := rfl
@[simp] theorem State.withDescriptor_refin (s : State) (w : BitVec 8) (ri ro tm : Bool) (p i x c : Word) : (s.withDescriptor w ri ro tm p i x c).refin = ri := rfl
@[simp] theorem State.withDescriptor_refout (s : State) (w : BitVec 8) (ri ro tm : Bool) (p i x c : Word) : (s.withDescriptor w ri ro tm p i x c).refout = ro := rfl
@[simp] theorem State.withDescriptor_check (s : State) (w : BitVec 8) (ri ro tm : Bool) (p i x c : Word) : (s.withDescriptor w ri ro tm p i x c).check = c := rfl
@[simp] theorem State.withDescriptor_mode (s : State) (w : BitVec 8) (ri ro tm : Bool) (p i x c : Word) : (s.withDescriptor w ri ro tm p i x c).mode = tm := rfl
@[simp] theorem State.withDescriptor_reg (s : State) (w : BitVec 8) (ri ro tm : Bool) (p i x c : Word) : (s.withDescriptor w ri ro tm p i x c).reg = s.reg := rfl
@[simp] theorem State.withDescriptor_table (s : State) (w : BitVec 8) (ri ro tm : Bool) (p i x c : Word) : (s.withDescriptor w ri ro tm p i x c).table = s.table := rfl
@[simp] theorem State.withDescriptor_cmd (s : State) (w : BitVec 8) (ri ro tm : Bool) (p i x c : Word) : (s.withDescriptor w ri ro tm p i x c).cmd = s.cmd := rfl
@[simp] theorem State.withDescriptor_rsp (s : State) (w : BitVec 8) (ri ro tm : Bool) (p i x c : Word) : (s.withDescriptor w ri ro tm p i x c).rsp = s.rsp := rfl
@[simp] theorem State.withDescriptor_rst (s : State) (w : BitVec 8) (ri ro tm : Bool) (p i x c : Word) : (s.withDescriptor w ri ro tm p i x c).rst = s.rst := rfl
@[simp] theorem State.withDescriptor_rspReady (s : State) (w : BitVec 8) (ri ro tm : Bool) (p i x c : Word) : (s.withDescriptor w ri ro tm p i x c).rspReady = s.rspReady := rfl

@[simp] theorem hardReset_fsm (s : State) : (hardReset s).fsm = .uninitialized := rfl
@[simp] theorem hardReset_cmd (s : State) : (hardReset s).cmd = [] := rfl
@[simp] theorem hardReset_rsp (s : State) : (hardReset s).rsp = [] := rfl
@[simp] theorem hardReset_table (s : State) : (hardReset s).table = [] := rfl
@[simp] theorem hardReset_rst (s : State) : (hardReset s).rst = s.rst := rfl
@[simp] theorem hardReset_rspReady (s : State) : (hardReset s).rspReady = s.rspReady := rfl

@[simp] theorem State.emit_nil (s : State) : s.emit [] = s := by simp [State.emit]

@[simp] theorem State.emit_emit (s : State) (vs ws : List Word) : (s.emit vs).emit ws = s.emit (vs ++ ws) := by
  simp [State.emit]

end Sys2Proof.Machine
end

