-- ==== Sys2Proof/Laws/Memory.lean ====
section
/-! SUPPORT. The table memory: what a read finds after a store, and that a store within the table keeps the
canonical form. -/

namespace Sys2Proof.Machine

theorem Memory.wf_iff (m : Memory) :
    m.wf = true ↔ m.Pairwise (fun a b => a.1 < b.1) ∧ ∀ c ∈ m, c.1 < Config.tableSize := by
  simp [Memory.wf]

/-- The empty memory is canonical, so the memory after a hard reset is. -/
@[simp] theorem Memory.wf_nil : Memory.wf [] = true := rfl

@[simp] theorem Memory.read_nil (a : Nat) : Memory.read [] a = none := rfl

theorem Memory.read_cons (c : Nat × Word) (m : Memory) (a : Nat) :
    Memory.read (c :: m) a = if a = c.1 then some c.2 else Memory.read m a := by
  obtain ⟨k, v⟩ := c
  by_cases h : a = k
  · simp [Memory.read, h]
  · simp [Memory.read, List.lookup_cons, h, beq_false_of_ne h]

theorem Memory.read_append (m n : Memory) (a : Nat) :
    Memory.read (m ++ n) a = (Memory.read m a).or (Memory.read n a) := by
  induction m with
  | nil => simp
  | cons c m ih => by_cases h : a = c.1 <;> simp [Memory.read_cons, h, ih]

/-- Reading through a filter on indices: the entry if its index passes, nothing if not. -/
theorem Memory.read_filter (p : Nat → Bool) (m : Memory) (a : Nat) :
    Memory.read (m.filter fun c => p c.1) a = if p a then Memory.read m a else none := by
  induction m with
  | nil => simp
  | cons c m ih =>
    by_cases h : a = c.1
    · subst h
      by_cases hp : p c.1 <;> simp [hp, Memory.read_cons, ih]
    · by_cases hc : p c.1 <;> simp [hc, Memory.read_cons, h, ih]

/-- The block of entries a store writes. -/
theorem Memory.read_zipIdx (vs : List Word) (base a : Nat) :
    Memory.read ((vs.zipIdx base).map fun p => (p.2, p.1)) a
      = if base ≤ a then vs[a - base]? else none := by
  induction vs generalizing base with
  | nil => simp
  | cons v vs ih =>
    simp only [List.zipIdx_cons, List.map_cons, Memory.read_cons, ih]
    by_cases h : a = base
    · simp [h]
    · by_cases hlt : base + 1 ≤ a
      · have : a - base = (a - (base + 1)) + 1 := by omega
        simp [h, hlt, show base ≤ a by omega, this]
      · simp [h, hlt, show ¬ base ≤ a by omega]

/-- What a read finds after a store: the stored value inside, and outside what was there. -/
theorem Memory.read_store (m : Memory) (base : Nat) (vs : List Word) (a : Nat) :
    (m.store base vs).read a
      = if base ≤ a ∧ a < base + vs.length then vs[a - base]? else m.read a := by
  unfold Memory.store
  rw [Memory.read_append, Memory.read_append,
    Memory.read_filter (fun i => decide (i < base)),
    Memory.read_filter (fun i => decide (base + vs.length ≤ i)), Memory.read_zipIdx]
  by_cases h1 : base ≤ a
  · by_cases h2 : a < base + vs.length
    · have : ∃ v, vs[a - base]? = some v := ⟨vs[a - base]'(by omega), by simp [show a - base < vs.length by omega]⟩
      obtain ⟨v, hv⟩ := this
      simp [h1, h2, hv, show ¬ a < base by omega]
    · have : vs[a - base]? = none := by simp; omega
      simp [h1, h2, this, show ¬ a < base by omega, show base + vs.length ≤ a by omega]
  · simp [h1, show a < base by omega, show ¬ base + vs.length ≤ a by omega]

theorem Memory.pairwise_zipIdx (vs : List Word) (base : Nat) :
    ((vs.zipIdx base).map fun p => (p.2, p.1)).Pairwise (fun a b : Nat × Word => a.1 < b.1) := by
  induction vs generalizing base with
  | nil => simp
  | cons v vs ih =>
    simp only [List.zipIdx_cons, List.map_cons, List.pairwise_cons, ih, and_true]
    intro c hc
    simp only [List.mem_map, Prod.exists] at hc
    obtain ⟨x, i, hi, rfl⟩ := hc
    exact (List.mem_zipIdx hi).1

theorem Memory.mem_zipIdx_bounds {vs : List Word} {base : Nat} {c : Nat × Word}
    (hc : c ∈ (vs.zipIdx base).map fun p => (p.2, p.1)) : base ≤ c.1 ∧ c.1 < base + vs.length := by
  simp only [List.mem_map, Prod.exists] at hc
  obtain ⟨x, i, hi, rfl⟩ := hc
  exact ⟨(List.mem_zipIdx hi).1, (List.mem_zipIdx hi).2.1⟩

/-- A store within the table keeps the canonical form. -/
theorem Memory.wf_store {m : Memory} {base : Nat} {vs : List Word} (hm : m.wf = true)
    (hb : base + vs.length ≤ Config.tableSize) : (m.store base vs).wf = true := by
  rw [Memory.wf_iff] at hm ⊢
  obtain ⟨hp, hr⟩ := hm
  constructor
  · unfold Memory.store
    rw [List.pairwise_append, List.pairwise_append]
    refine ⟨⟨hp.filter _, Memory.pairwise_zipIdx vs base, ?_⟩, hp.filter _, ?_⟩
    · intro a ha b hb'
      have := (Memory.mem_zipIdx_bounds hb').1
      simp at ha
      omega
    · intro a ha b hb'
      simp only [List.mem_filter, decide_eq_true_eq] at hb'
      rcases List.mem_append.1 ha with ha | ha
      · simp only [List.mem_filter, decide_eq_true_eq] at ha
        omega
      · have := (Memory.mem_zipIdx_bounds ha).2
        omega
  · intro c hc
    unfold Memory.store at hc
    rcases List.mem_append.1 hc with hc | hc
    · rcases List.mem_append.1 hc with hc | hc
      · exact hr c (List.mem_of_mem_filter hc)
      · have := (Memory.mem_zipIdx_bounds hc).2
        omega
    · exact hr c (List.mem_of_mem_filter hc)

/-- A store of the whole table leaves nothing of a canonical memory's old entries. -/
theorem Memory.store_whole {m : Memory} {vs : List Word} (hm : m.wf = true)
    (hl : vs.length = Config.tableSize) :
    m.store 0 vs = (vs.zipIdx 0).map fun p => (p.2, p.1) := by
  have hr := ((Memory.wf_iff m).1 hm).2
  unfold Memory.store
  have h1 : m.filter (fun c => decide (c.1 < 0)) = [] := by simp
  have h2 : m.filter (fun c => decide (0 + vs.length ≤ c.1)) = [] := by
    simp only [List.filter_eq_nil_iff, decide_eq_true_eq]
    intro c hc
    have := hr c hc
    omega
  rw [h1, h2]; simp

end Sys2Proof.Machine
end

