-- ==== Sys2Proof/Laws/Ops.lean ====
section
/-! SUPPORT. What the shared operations can do, said once: answering, raising, one frame at the front of the
channel, and what each meaning can answer. -/

namespace Sys2Proof.Machine

/-! ## Answers -/

theorem respond_eq_next (opc : BitVec 8) (payload : List Word) (s t : State) :
    respond opc payload s = .next t ↔ t = s.emit (responseHeader opc none :: payload) := by
  simp [respond, eq_comm]

theorem raise_eq_next (opc : BitVec 8) (e : CommandError) (s t : State) :
    raise opc e s = .next t ↔ t = s.emit [responseHeader opc (some e)] := by
  simp [raise, eq_comm]

theorem respond_ne_fault (opc : BitVec 8) (payload : List Word) (s : State) (f : Fault) :
    respond opc payload s ≠ .fault f := nofun

theorem raise_ne_fault (opc : BitVec 8) (e : CommandError) (s : State) (f : Fault) :
    raise opc e s ≠ .fault f := nofun

/-- The status field of a response header (rules R60, R62). -/
theorem responseHeader_status (opc : BitVec 8) (e : Option CommandError) :
    (responseHeader opc e).extractLsb' 0 4 = statusCode e := by
  apply BitVec.eq_of_getLsbD_eq
  intro k hk
  simp only [responseHeader, BitVec.getLsbD_extractLsb', BitVec.getLsbD_append]
  interval_cases k <;> simp

/-- The opcode field of a response header (rule R60). -/
theorem responseHeader_opcode (opc : BitVec 8) (e : Option CommandError) :
    opcodeOf (responseHeader opc e) = opc := by
  apply BitVec.eq_of_getLsbD_eq
  intro k hk
  simp only [responseHeader, opcodeOf, BitVec.getLsbD_extractLsb', BitVec.getLsbD_append]
  interval_cases k <;> simp

/-! The response headers as words (rules R60, R62). -/

theorem headerInit_ok : responseHeader 0x01#8 none = 0x01000000#32 := rfl
theorem headerInit_configError : responseHeader 0x01#8 (some .configError) = 0x01000001#32 := rfl
theorem headerUpdate_ok : responseHeader 0x02#8 none = 0x02000000#32 := rfl
theorem headerUpdate_usageError : responseHeader 0x02#8 (some .usageError) = 0x02000002#32 := rfl
theorem headerReset_ok : responseHeader 0x03#8 none = 0x03000000#32 := rfl
theorem headerReset_usageError : responseHeader 0x03#8 (some .usageError) = 0x03000002#32 := rfl
theorem headerFinalize_ok : responseHeader 0x04#8 none = 0x04000000#32 := rfl
theorem headerFinalize_usageError : responseHeader 0x04#8 (some .usageError) = 0x04000002#32 := rfl
theorem headerSelftest_ok : responseHeader 0x05#8 none = 0x05000000#32 := rfl
theorem headerSelftest_usageError : responseHeader 0x05#8 (some .usageError) = 0x05000002#32 := rfl
theorem headerReflect_ok : responseHeader 0x06#8 none = 0x06000000#32 := rfl
theorem headerReflect_rangeError : responseHeader 0x06#8 (some .rangeError) = 0x06000003#32 := rfl
theorem headerTbuild_ok : responseHeader 0x07#8 none = 0x07000000#32 := rfl
theorem headerTbuild_configError : responseHeader 0x07#8 (some .configError) = 0x07000001#32 := rfl
theorem headerTread_ok : responseHeader 0x08#8 none = 0x08000000#32 := rfl
theorem headerTread_usageError : responseHeader 0x08#8 (some .usageError) = 0x08000002#32 := rfl

/-! ## Frames at the front of the channel -/

theorem framelen_pos (h : Word) : 1 ≤ framelen h := by
  unfold framelen
  repeat' split
  all_goals omega

/-- The decoder on a complete frame looks at that frame and leaves the rest (rule R57). -/
theorem decode_complete (h : Word) (ops rest : List Word) (hl : ops.length + 1 = framelen h) :
    decode (h :: ops ++ rest) = match decodeFrame h ops with
      | some i => .command i rest
      | none => .illegal h (illegalReason h) rest := by
  have hn : framelen h - 1 = ops.length := by omega
  have hlt : ¬ (ops ++ rest).length < framelen h - 1 := by
    rw [hn, List.length_append]
    omega
  rewrite [List.cons_append, decode, if_neg hlt, hn, List.take_left' rfl, List.drop_left' rfl]
  rfl

/-- The decoder waits for the words of a frame that is not complete (rules R57, R125). -/
theorem decode_incomplete (h : Word) (ws : List Word) (hl : ws.length + 1 < framelen h) :
    decode (h :: ws) = .incomplete := by
  rw [decode, if_pos (by omega)]

/-! ## Back-pressure (rule R124) -/

theorem stalled_iff (s : State) :
    s.stalled = true ↔ s.rspReady = false ∧ Config.responseDepth < s.rsp.length := by
  simp [State.stalled]

theorem stalled_eq_false_iff (s : State) :
    s.stalled = false ↔ s.rspReady = true ∨ s.rsp.length ≤ Config.responseDepth := by
  cases h : s.rspReady <;> simp [State.stalled, h]

/-- A block that is not stalled takes every word (rules R30, R31). -/
theorem sendCommand_of_not_stalled {s : State} (hrst : s.rst = false) (hs : s.stalled = false) (ws : List Word) :
    sendCommand ws s = some { s with cmd := s.cmd ++ ws } := by
  induction ws generalizing s with
  | nil => simp [sendCommand]
  | cons w ws ih =>
    rw [sendCommand, if_pos (by simp [commandReady, hrst, hs]),
      ih (s := { s with cmd := s.cmd ++ [w] }) hrst hs, List.append_assoc]
    rfl

/-- Words that moved are in the channel, in order, and nothing else has changed (rule R30). -/
theorem sendCommand_eq_some {ws : List Word} {s t : State} (h : sendCommand ws s = some t) :
    t = { s with cmd := s.cmd ++ ws } := by
  induction ws generalizing s with
  | nil =>
    rw [sendCommand, Option.some.injEq] at h
    simp [← h]
  | cons w ws ih =>
    rw [sendCommand] at h
    split at h
    · rw [ih h, List.append_assoc]
      rfl
    · cases h

/-! ## The step -/

/-- A step with a complete frame at the front of the channel and no back-pressure. -/
theorem step_complete {s : State} {h : Word} {ops rest : List Word} (hrst : s.rst = false)
    (hs : s.stalled = false) (hc : s.cmd = h :: ops ++ rest) (hl : ops.length + 1 = framelen h) :
    step s = match decodeFrame h ops with
      | some i => exec i (s.withCommands rest)
      | none => answerIllegal h (s.withCommands rest) := by
  rw [step, hrst, hc, decode_complete h ops rest hl]
  cases decodeFrame h ops <;> simp [hs]

/-- A stalled block holds its state, whatever complete frame waits (rule R124). -/
theorem step_stalled {s : State} (hrst : s.rst = false) (hs : s.stalled = true)
    (hc : decode s.cmd ≠ .incomplete) : step s = .next s := by
  rw [step, hrst, if_neg (by simp)]
  split <;> simp_all

/-! ## The meanings -/

/-- With a table for the polynomial and width in use, or in bitwise mode, no byte step faults (rule R23). -/
theorem byteStep_isSome {s : State} (r : Nat) (b : Byte) (hw : legalWidth s.width = true)
    (ht : s.mode = true → ∀ k, k < Config.tableSize → ∃ e, s.table.read k = some e) :
    ∃ r', byteStep s r b = some r' := by
  unfold byteStep
  split
  · rename_i hm
    obtain ⟨hlo, hhi⟩ := legalWidth_bounds hw
    have hf := (le_mask_iff _ _).1 (fold_le r b.toNat s.refin s.width.toNat)
    have hidx : fold r b.toNat s.refin s.width.toNat >>> (s.width.toNat - 8) < Config.tableSize := by
      rw [Nat.shiftRight_eq_div_pow, Nat.div_lt_iff_lt_mul (Nat.two_pow_pos _)]
      calc _ < 2 ^ s.width.toNat := hf
        _ = 2 ^ 8 * 2 ^ (s.width.toNat - 8) := by rw [← Nat.pow_add]; congr 1; omega
        _ = Config.tableSize * 2 ^ (s.width.toNat - 8) := rfl
    obtain ⟨e, he⟩ := ht hm _ hidx
    exact ⟨_, by rw [advanceTable, he]; rfl⟩
  · exact ⟨_, rfl⟩

theorem foldBytes_isSome {s : State} (r : Nat) (bytes : List Byte) (hw : legalWidth s.width = true)
    (ht : s.mode = true → ∀ k, k < Config.tableSize → ∃ e, s.table.read k = some e) :
    ∃ r', foldBytes s r bytes = some r' := by
  induction bytes generalizing r with
  | nil => exact ⟨r, rfl⟩
  | cons b bs ih =>
    obtain ⟨r1, h1⟩ := byteStep_isSome r b hw ht
    obtain ⟨r2, h2⟩ := ih r1
    exact ⟨r2, by rw [foldBytes, h1]; exact h2⟩

/-- `UPDATE` that answers: an error without a descriptor, or else the folded register (rule R85). -/
theorem execUpdate_eq_next {bytes : List Byte} {s t : State} (h : execUpdate bytes s = .next t) :
    (s.fsm = .uninitialized ∧ t = s.emit [responseHeader 0x02#8 (some .usageError)]) ∨
    ∃ r, s.fsm ≠ .uninitialized ∧ foldBytes s s.reg.toNat bytes = some r ∧
      t = ((s.withReg (BitVec.ofNat 32 r)).withFsm (if bytes.isEmpty then s.fsm else .accumulating)).emit
        [responseHeader 0x02#8 none, BitVec.ofNat 32 r] := by
  unfold execUpdate at h
  split at h
  · exact .inl ⟨‹_›, (raise_eq_next _ _ _ _).1 h⟩
  · split at h
    · exact .inr ⟨_, ‹_›, ‹_›, (respond_eq_next _ _ _ _).1 h⟩
    · cases h

/-- `SELFTEST` that answers: an error without a descriptor, or else the register of the test vector (rule
R94). -/
theorem execSelftest_eq_next {s t : State} (h : execSelftest s = .next t) :
    (s.fsm = .uninitialized ∧ t = s.emit [responseHeader 0x05#8 (some .usageError)]) ∨
    ∃ r, s.fsm ≠ .uninitialized ∧ foldBytes s s.initv.toNat testVector = some r ∧
      t = ((s.withReg (BitVec.ofNat 32 r)).withFsm .finalized).emit
        [responseHeader 0x05#8 none,
         boolWord (BitVec.ofNat 32 (finalizeValue r s.width.toNat s.refout s.xorout.toNat) == s.check)] := by
  unfold execSelftest at h
  split at h
  · exact .inl ⟨‹_›, (raise_eq_next _ _ _ _).1 h⟩
  · split at h
    · exact .inr ⟨_, ‹_›, ‹_›, (respond_eq_next _ _ _ _).1 h⟩
    · cases h

/-- `TREAD` that answers: an error without a built table, or else the entry (rule R76). -/
theorem execTread_eq_next {index : BitVec 8} {s t : State} (h : execTread index s = .next t) :
    ((s.fsm = .uninitialized ∨ s.mode = false) ∧ t = s.emit [responseHeader 0x08#8 (some .usageError)]) ∨
    ∃ e, s.fsm ≠ .uninitialized ∧ s.mode = true ∧ s.table.read index.toNat = some e ∧
      t = s.emit [responseHeader 0x08#8 none, e] := by
  unfold execTread at h
  split at h
  · exact .inl ⟨.inl ‹_›, (raise_eq_next _ _ _ _).1 h⟩
  · split at h
    · exact .inl ⟨.inr ‹_›, (raise_eq_next _ _ _ _).1 h⟩
    · split at h
      · exact .inr ⟨_, ‹_›, by simpa using ‹¬ s.mode = false›, ‹_›, (respond_eq_next _ _ _ _).1 h⟩
      · cases h

/-- `RESET` answers in every state (rule R87). -/
theorem execReset_eq_next {s t : State} (h : execReset s = .next t) :
    (s.fsm = .uninitialized ∧ t = s.emit [responseHeader 0x03#8 (some .usageError)]) ∨
    (s.fsm ≠ .uninitialized ∧
      t = ((s.withReg s.initv).withFsm .ready).emit [responseHeader 0x03#8 none, s.initv]) := by
  unfold execReset at h
  split at h
  · exact .inl ⟨‹_›, (raise_eq_next _ _ _ _).1 h⟩
  · exact .inr ⟨‹_›, (respond_eq_next _ _ _ _).1 h⟩

/-- `FINALIZE` answers in every state (rule R91). -/
theorem execFinalize_eq_next {s t : State} (h : execFinalize s = .next t) :
    (s.fsm = .uninitialized ∧ t = s.emit [responseHeader 0x04#8 (some .usageError)]) ∨
    (s.fsm ≠ .uninitialized ∧
      t = (s.withFsm .finalized).emit [responseHeader 0x04#8 none,
        BitVec.ofNat 32 (finalizeValue s.reg.toNat s.width.toNat s.refout s.xorout.toNat)]) := by
  unfold execFinalize at h
  split at h
  · exact .inl ⟨‹_›, (raise_eq_next _ _ _ _).1 h⟩
  · exact .inr ⟨‹_›, (respond_eq_next _ _ _ _).1 h⟩

/-- `UPDATE` with a descriptor answers as soon as its byte steps have a value (rule R85). -/
theorem execUpdate_of_foldBytes {bytes : List Byte} {s : State} {r : Nat} (hf : s.fsm ≠ .uninitialized)
    (h : foldBytes s s.reg.toNat bytes = some r) :
    execUpdate bytes s = .next (((s.withReg (BitVec.ofNat 32 r)).withFsm
      (if bytes.isEmpty then s.fsm else .accumulating)).emit
        [responseHeader 0x02#8 none, BitVec.ofNat 32 r]) := by
  unfold execUpdate
  rw [if_neg hf, h]
  rfl

/-- `SELFTEST` with a descriptor answers as soon as the test vector's byte steps have a value (rule R94). -/
theorem execSelftest_of_foldBytes {s : State} {r : Nat} (hf : s.fsm ≠ .uninitialized)
    (h : foldBytes s s.initv.toNat testVector = some r) :
    execSelftest s = .next (((s.withReg (BitVec.ofNat 32 r)).withFsm .finalized).emit
      [responseHeader 0x05#8 none,
       boolWord (BitVec.ofNat 32 (finalizeValue r s.width.toNat s.refout s.xorout.toNat) == s.check)]) := by
  unfold execSelftest
  rw [if_neg hf, h]
  rfl

/-- `TREAD` of a built table answers as soon as the entry has a value (rule R76). -/
theorem execTread_of_read {index : BitVec 8} {s : State} {e : Word} (hf : s.fsm ≠ .uninitialized)
    (hm : s.mode = true) (h : s.table.read index.toNat = some e) :
    execTread index s = .next (s.emit [responseHeader 0x08#8 none, e]) := by
  unfold execTread
  rw [if_neg hf, if_neg (by simp [hm]), h]
  rfl

/-- No command is refused: every arm of `exec` has its meaning. -/
theorem exec_ne_refused (i : Instr) (s : State) (r : Refusal) : exec i s ≠ .refused r := by
  cases i <;>
    simp only [exec, execInit, execUpdate, execReset, execFinalize, execSelftest, execReflect, execTbuild,
      execTread] <;>
    repeat' split
  all_goals nofun

/-- The only commands that can fault, and where: a table-mode read of an entry nothing has written (log
entry 2). -/
theorem exec_eq_fault {i : Instr} {s : State} {f : Fault} (h : exec i s = .fault f) :
    f = .tableEntryAbsent ∧ s.fsm ≠ .uninitialized ∧
      ((∃ index : BitVec 8, i = .tread index ∧ s.mode = true ∧ s.table.read index.toNat = none) ∨
       (∃ bytes, i = .update bytes ∧ foldBytes s s.reg.toNat bytes = none) ∨
       (i = .selftest ∧ foldBytes s s.initv.toNat testVector = none)) := by
  cases i with
  | init => simp only [exec, execInit] at h; split at h <;> cases h
  | update bytes =>
    simp only [exec, execUpdate] at h
    split at h
    · cases h
    · split at h
      · cases h
      · cases h; exact ⟨rfl, ‹_›, .inr (.inl ⟨bytes, rfl, ‹_›⟩)⟩
  | reset => simp only [exec, execReset] at h; split at h <;> cases h
  | finalize => simp only [exec, execFinalize] at h; split at h <;> cases h
  | selftest =>
    simp only [exec, execSelftest] at h
    split at h
    · cases h
    · split at h
      · cases h
      · cases h; exact ⟨rfl, ‹_›, .inr (.inr ⟨rfl, ‹_›⟩)⟩
  | reflect => simp only [exec, execReflect] at h; split at h <;> cases h
  | tbuild => simp only [exec, execTbuild] at h; split at h <;> cases h
  | tread index =>
    simp only [exec, execTread] at h
    split at h
    · cases h
    · split at h
      · cases h
      · split at h
        · cases h
        · cases h
          exact ⟨rfl, ‹_›, .inl ⟨index, rfl, by simpa using ‹¬ s.mode = false›, ‹_›⟩⟩

end Sys2Proof.Machine
end

