-- ==== Sys2Proof/Laws/PerInstr.lean ====
section
/-! SUPPORT. Per-command families. `FrameLength`: the header of an encoded command measures its own frame
(rules R54 and R66). -/

namespace Sys2Proof.Laws.FrameLength

/-- `framelen` of the encoded header is the number of words of the encoding. -/
def Statement (i : Instr) : Prop := i.WellFormed → framelen (encodeHeader i) = (encode i).length

/-- The `LEN` field of an encoded `UPDATE` header (rule R49). -/
theorem update_len (bytes : List Byte) (h : bytes.length ≤ Config.maxChunk) :
    ((encodeHeader (.update bytes)).extractLsb' 0 16).toNat = bytes.length := by
  have : (encodeHeader (.update bytes)).extractLsb' 0 16 = BitVec.ofNat 16 bytes.length := by
    apply BitVec.eq_of_getLsbD_eq
    intro k hk
    simp only [encodeHeader, BitVec.getLsbD_extractLsb', BitVec.getLsbD_append]
    simp [hk]
  rw [this, BitVec.toNat_ofNat, Nat.mod_eq_of_lt]
  simp only [Config.maxChunk] at h
  omega

theorem init (width : BitVec 8) (refin refout tmode : Bool) (poly initv xorout check : Word) :
    Statement (.init width refin refout tmode poly initv xorout check) := fun _ => by
  simp [framelen, opcodeOf_encodeHeader, Instr.opcode, encode, encodeOperands]

theorem update (bytes : List Byte) : Statement (.update bytes) := fun h => by
  have hlen := update_len bytes (of_decide_eq_true h)
  rw [framelen, opcodeOf_encodeHeader, hlen, encode, List.length_cons, encodeOperands, packBytes_length]
  simp only [Instr.opcode, Nat.shiftRight_eq_div_pow]
  simp
  omega

theorem reset : Statement .reset := fun _ => by decide

theorem finalize : Statement .finalize := fun _ => by decide

theorem selftest : Statement .selftest := fun _ => by decide

theorem reflect (n : BitVec 6) (value : Word) : Statement (.reflect n value) := fun _ => by
  simp [framelen, opcodeOf_encodeHeader, Instr.opcode, encode, encodeOperands]

theorem tbuild (width : BitVec 8) (poly : Word) : Statement (.tbuild width poly) := fun _ => by
  simp [framelen, opcodeOf_encodeHeader, Instr.opcode, encode, encodeOperands]

theorem tread (index : BitVec 8) : Statement (.tread index) := fun _ => by
  simp [framelen, opcodeOf_encodeHeader, Instr.opcode, encode, encodeOperands]

end Sys2Proof.Laws.FrameLength
end

