-- ==== Sys2Proof/Tests/Slice0.lean ====
section
/-! SUPPORT. Small tests. Every expected value is from the spec: the vectors of 95_test_vectors.md and the
worked examples of the rules, named in each docstring, or headers written out bit by bit from the formats
of 30_encoding.md. -/

namespace Sys2Proof.Tests

open Sys2Proof.Machine

/-! Well-formedness: the one check, with a command it refuses. -/

/-- `LEN` has 16 bits: 65536 bytes have no frame (rule R49). -/
theorem test_wellFormed_refuses_long_chunk :
    (Instr.update (List.replicate 65536 0#8)).wellFormed = false := by
  rw [Instr.wellFormed, List.length_replicate]
  rfl

/-- 65535 bytes have one (rule R49). -/
theorem test_wellFormed_takes_longest_chunk :
    (Instr.update (List.replicate 65535 0#8)).wellFormed = true := by
  rw [Instr.wellFormed, List.length_replicate]
  rfl

/-! Decoding: one header per command, written from its format. -/

/-- Rule R48: `OPC`, reserved, `TMODE`, `REFOUT`, `REFIN`, reserved, `WIDTH`; only `REFIN` set. -/
theorem test_decode_init :
    decode [0b00000001_00000_0_0_1_00000000_00011000#32, 1#32, 2#32, 3#32, 4#32, 5#32]
      = .command (.init 24#8 true false false 1#32 2#32 3#32 4#32) [5#32] := by decide

/-- Rule R48: only `TMODE` and `REFOUT` set. -/
theorem test_decode_init_flags :
    decode [0b00000001_00000_1_1_0_00000000_00000111#32, 1#32, 2#32, 3#32, 4#32]
      = .command (.init 7#8 false true true 1#32 2#32 3#32 4#32) [] := by decide

/-- Rule R49 and the example of rule R35: five bytes in two words, pad lanes ignored. -/
theorem test_decode_update :
    decode [0b00000010_00000000_0000000000000101#32, 0x34333231#32, 0xABCDEF35#32, 0x03000000#32]
      = .command (.update [0x31#8, 0x32#8, 0x33#8, 0x34#8, 0x35#8]) [0x03000000#32] := by decide

/-- Rule R50. -/
theorem test_decode_reset :
    decode [0b00000011_000000000000000000000000#32] = .command .reset [] := by decide

/-- Rule R50. -/
theorem test_decode_finalize :
    decode [0b00000100_000000000000000000000000#32] = .command .finalize [] := by decide

/-- Rule R50. -/
theorem test_decode_selftest :
    decode [0b00000101_000000000000000000000000#32] = .command .selftest [] := by decide

/-- Rule R51; `N` above 32 is a legal encoding. -/
theorem test_decode_reflect :
    decode [0b00000110_000000000000000000_100001#32, 0x31#32] = .command (.reflect 33#6 0x31#32) [] := by
  decide

/-- Rule R52. -/
theorem test_decode_tbuild :
    decode [0b00000111_0000000000000000_00001001#32, 7#32] = .command (.tbuild 9#8 7#32) [] := by decide

/-- Rule R53. -/
theorem test_decode_tread :
    decode [0b00001000_0000000000000000_11111111#32] = .command (.tread 255#8) [] := by decide

/-- 95_test_vectors.md 2.5: a reserved bit of `UPDATE` set, two words consumed. -/
theorem test_decode_illegal_update :
    decode [0x02010001#32, 0x31#32, 9#32] = .illegal 0x02010001#32 .reservedBitSet [9#32] := by decide

/-- 95_test_vectors.md 2.5: an unassigned opcode, one word consumed. -/
theorem test_decode_illegal_opcode :
    decode [0xFF123456#32, 9#32] = .illegal 0xFF123456#32 .unassignedOpcode [9#32] := by decide

/-- Rule R125: a header whose frame is not complete. -/
theorem test_decode_incomplete : decode [0x02000005#32, 0x34333231#32] = .incomplete := by decide

/-- 95_test_vectors.md 2.5, frame lengths. -/
theorem test_framelen :
    [0x02000000#32, 0x02000001#32, 0x02000004#32, 0x02000005#32, 0x02000009#32, 0x0200FFFF#32,
      0x01FFFFFF#32, 0x06000000#32, 0x07000000#32, 0x08000000#32, 0xFF000000#32].map framelen
      = [1, 2, 2, 3, 4, 16385, 5, 2, 2, 1, 1] := by decide

/-- 95_test_vectors.md program 1, line 5: the frame of `UPDATE "56789"`. -/
theorem test_encode_update :
    encode (.update [0x35#8, 0x36#8, 0x37#8, 0x38#8, 0x39#8])
      = [0x02000005#32, 0x38373635#32, 0x00000039#32] := by decide

/-- Worked example of rule R84: the frame of an `INIT`. -/
theorem test_encode_init :
    encode (.init 8#8 false false true 0x07#32 0#32 0#32 0xF4#32)
      = [0x01040008#32, 0x07#32, 0#32, 0#32, 0xF4#32] := by decide

/-- An opcode-table row with bits beyond its header: the decoder reads the row's command. -/
theorem test_decodeTableWord : decodeTableWord 32 0x01040008 = some (.init 8#8 false false true 0 0 0 0) := by
  decide

/-- The same row run as the first command after reset: `ConfigError` for width 0, one response word. -/
theorem test_step_withFetchWord_from_reset :
    (match step (State.reset.withFetchWord 32 0x01000000) with
      | .next t => some (t.rsp, t.cmd, t.fsm)
      | .fault _ => none
      | .refused _ => none) = some ([0x01000001#32], [], .uninitialized) := by decide

/-! Steps on small states. -/

/-- The block after a successful `INIT` from reset (95_test_vectors.md section 1's columns). -/
def engine (width : BitVec 8) (poly initv xorout : Word) (refin refout tmode : Bool) (check : Word) : State :=
  match execInit width refin refout tmode poly initv xorout check State.reset with
  | .next t => { t with rsp := [] }
  | .fault _ => State.reset
  | .refused _ => State.reset

/-- CRC-8. -/
def crc8 (tmode : Bool) : State := engine 8#8 0x07#32 0#32 0#32 false false tmode 0xF4#32
/-- CRC-16/ARC. -/
def crc16 (tmode : Bool) : State := engine 16#8 0x8005#32 0#32 0#32 true true tmode 0xBB3D#32
/-- CRC-32. -/
def crc32 (tmode : Bool) : State :=
  engine 32#8 0x04C11DB7#32 0xFFFFFFFF#32 0xFFFFFFFF#32 true true tmode 0xCBF43926#32
/-- The width-24 configuration of 95_test_vectors.md section 2.3. -/
def crc24 (tmode : Bool) : State := engine 24#8 0x864CFB#32 0xB704CE#32 0#32 false false tmode 0x21CF02#32

/-- What one command leaves behind: the response words it added, the register and the state machine. -/
def seen (i : Instr) (s : State) : Option (List Word × Word × Fsm) :=
  match exec i s with
  | .next t => some (t.rsp.drop s.rsp.length, t.reg, t.fsm)
  | .fault _ => none
  | .refused _ => none

/-- Rule R84's worked example, and operand bits above the width dropped (95_test_vectors.md program 3,
line 12). -/
theorem test_init_masks_operands :
    (engine 8#8 0xABCDEF07#32 0x12345600#32 0xFFFFFF55#32 false false true 0xFFFFFFA1#32).poly = 0x07#32 ∧
    (engine 8#8 0xABCDEF07#32 0x12345600#32 0xFFFFFF55#32 false false true 0xFFFFFFA1#32).xorout = 0x55#32 ∧
    (engine 8#8 0xABCDEF07#32 0x12345600#32 0xFFFFFF55#32 false false true 0xFFFFFFA1#32).check
      = 0xFFFFFFA1#32 := by decide

/-- 95_test_vectors.md program 3, line 16: a failed `INIT` keeps the old descriptor. -/
theorem test_init_bad_width :
    exec (.init 12#8 true true true 1#32 2#32 3#32 4#32) (crc8 false)
      = .next ((crc8 false).emit [0x01000001#32]) := by rfl

/-- Rule R85's worked example, in both strategies. -/
theorem test_update_one_byte (tmode : Bool) :
    seen (.update [0x31#8]) (crc8 tmode) = some ([0x02000000#32, 0x97#32], 0x97#32, .accumulating) := by
  cases tmode <;> decide +kernel

/-- 95_test_vectors.md program 1, line 4: CRC-32 of "1234", in table mode. -/
theorem test_update_crc32 :
    seen (.update [0x31#8, 0x32#8, 0x33#8, 0x34#8]) (crc32 true)
      = some ([0x02000000#32, 0x3AF83826#32], 0x3AF83826#32, .accumulating) := by decide +kernel

/-- Rule R87's worked example. -/
theorem test_reset_crc32 :
    seen .reset (crc32 false) = some ([0x03000000#32, 0xFFFFFFFF#32], 0xFFFFFFFF#32, .ready) := by
  decide +kernel

/-- Rule R91's worked example: `FINALIZE` leaves the register alone. -/
theorem test_finalize_crc16 :
    seen .finalize ((crc16 false).withReg 0xBCDD#32)
      = some ([0x04000000#32, 0xBB3D#32], 0xBCDD#32, .finalized) := by decide +kernel

/-- 95_test_vectors.md 2.4, CRC-16/ARC in bitwise mode. -/
theorem test_selftest_crc16 :
    seen .selftest (crc16 false) = some ([0x05000000#32, 1#32], 0xBCDD#32, .finalized) := by decide +kernel

/-- 95_test_vectors.md 2.4 and program 4: width 24 in table mode. -/
theorem test_selftest_crc24 :
    seen .selftest (crc24 true) = some ([0x05000000#32, 1#32], 0x21CF02#32, .finalized) := by decide +kernel

/-- 95_test_vectors.md 2.1. -/
theorem test_reflect :
    seen (.reflect 24#6 0x12345678#32) (crc8 false)
      = some ([0x06000000#32, 0x121E6A2C#32], 0#32, .ready) := by decide +kernel

/-- 95_test_vectors.md 2.1: `RangeError`. -/
theorem test_reflect_range :
    seen (.reflect 33#6 1#32) (crc8 false) = some ([0x06000003#32], 0#32, .ready) := by decide +kernel

/-- 95_test_vectors.md 2.2, entries 0x31 and 0xFF of (864CFB, 24). -/
theorem test_buildTable :
    (buildTable 0x864CFB 24)[0x31]? = some 0x4FD39B#32 ∧ (buildTable 0x864CFB 24)[0xFF]? = some 0xDD8538#32 := by
  decide +kernel

/-- 95_test_vectors.md 2.2: `ConfigError` of `TBUILD`. -/
theorem test_tbuild_bad_width :
    seen (.tbuild 9#8 7#32) (crc8 false) = some ([0x07000001#32], 0#32, .ready) := by decide +kernel

/-- 95_test_vectors.md program 1, line 9. -/
theorem test_tread_crc32 :
    seen (.tread 255#8) (crc32 true) = some ([0x08000000#32, 0xB1F740B4#32], 0xFFFFFFFF#32, .ready) := by
  decide +kernel

/-- 95_test_vectors.md program 2, line 9: no table was built. -/
theorem test_tread_bitwise :
    seen (.tread 1#8) (crc16 false) = some ([0x08000002#32], 0#32, .ready) := by decide +kernel

/-- Rule R64's example texts, numbers in hexadecimal. -/
theorem test_text :
    instrText (.reflect 8#6 0x31#32) = "REFLECT n=0x08 value=0x00000031" ∧
    instrText (.update [0x31#8, 0x32#8, 0x33#8]) = "UPDATE [0x31, 0x32, 0x33]" ∧
    instrText (.update []) = "UPDATE []" := by decide +kernel

/-! Witnesses: for each obligation with hypotheses, states and operands that meet them, every clause at a
boundary of its range. -/

/-- A table just built is canonical and reads as built. -/
theorem table_built {s : State} {poly w : Nat} (ht : s.table = Memory.store [] 0 (buildTable poly w)) :
    s.table.wf = true ∧ ∀ b, b < Config.tableSize → s.table.read b = (buildTable poly w)[b]? := by
  rw [ht]
  refine ⟨Memory.wf_store rfl (by rw [buildTable_length, Nat.zero_add]), fun b hb => ?_⟩
  rw [Memory.read_store, buildTable_length, if_pos ⟨Nat.zero_le b, by omega⟩, Nat.sub_zero]

/-- The table of CRC-8. -/
theorem table_crc8 : (crc8 true).table = Memory.store [] 0 (buildTable 0x07 8) := by decide +kernel

/-- The table of CRC-32. -/
theorem table_crc32 : (crc32 true).table = Memory.store [] 0 (buildTable 0x04C11DB7 32) := by decide +kernel

/-- CRC-8 after its `INIT`, in either strategy, meets the invariant and holds a descriptor. -/
theorem inv_crc8 (tmode : Bool) : Inv (crc8 tmode) ∧ (crc8 tmode).fsm ≠ .uninitialized := by
  cases tmode
  · exact ⟨⟨by decide +kernel, fun _ => by decide +kernel, fun _ => by unfold Masked; decide +kernel,
      fun _ h => absurd h (by decide +kernel)⟩, by decide +kernel⟩
  · have hp : (crc8 true).poly.toNat = 0x07 ∧ (crc8 true).width.toNat = 8 := by decide +kernel
    exact ⟨⟨(table_built table_crc8).1, fun _ => by decide +kernel, fun _ => by unfold Masked; decide +kernel,
      fun _ _ => by unfold TableBuilt; rw [hp.1, hp.2]; exact (table_built table_crc8).2⟩, by decide +kernel⟩

/-- The same of the widest configuration, CRC-32, in table mode. -/
theorem inv_crc32 : Inv (crc32 true) ∧ (crc32 true).fsm ≠ .uninitialized := by
  have hp : (crc32 true).poly.toNat = 0x04C11DB7 ∧ (crc32 true).width.toNat = 32 := by decide +kernel
  exact ⟨⟨(table_built table_crc32).1, fun _ => by decide +kernel, fun _ => by unfold Masked; decide +kernel,
    fun _ _ => by unfold TableBuilt; rw [hp.1, hp.2]; exact (table_built table_crc32).2⟩, by decide +kernel⟩

/-- The block after the host has sent the frame of CRC-8's `INIT` and the block has run it. -/
def afterInit (tmode : Bool) : State :=
  match step { State.reset with cmd := encode (.init 8#8 false false tmode 0x07#32 0#32 0#32 0xF4#32) } with
  | .next t => t
  | .fault _ => State.reset
  | .refused _ => State.reset

/-- That state is one a host can bring the block to. -/
theorem reachable_afterInit (tmode : Bool) :
    Reachable (afterInit tmode) ∧ (afterInit tmode).fsm = .ready ∧ (afterInit tmode).mode = tmode := by
  have sent := Reachable.send _ _ (encode (.init 8#8 false false tmode 0x07#32 0#32 0#32 0xF4#32)) .reset rfl
  cases tmode
  · exact ⟨.step _ _ sent rfl, rfl, rfl⟩
  · exact ⟨.step _ _ sent rfl, rfl, rfl⟩

/-- CRC-8 in table mode with these words in the command channel. -/
def queued (ws : List Word) : State := { crc8 true with cmd := ws }

/-- A well-formed command, and the complete frames of an `UPDATE` and of another command. -/
theorem witness_EncodingIsTheInverseOfDecoding :
    (Instr.tread 255#8).WellFormed ∧
    [0x34333231#32, 0xABCDEF35#32].length + 1 = framelen 0x02000005#32 ∧
    decode (0x02000005#32 :: [0x34333231#32, 0xABCDEF35#32] ++ [])
      = .command (.update [0x31#8, 0x32#8, 0x33#8, 0x34#8, 0x35#8]) [] ∧
    ([] : List Word).length + 1 = framelen 0x080000FF#32 ∧
    decode (0x080000FF#32 :: [] ++ [7#32]) = .command (.tread 255#8) [7#32] := by decide

/-- A header of a row, a header of none, and a header whose frame misses its last word. -/
theorem witness_DecodingIsTotal :
    (([0#32] : List Word).length + 1 = framelen 0x0600003F#32 ∧
      ∃ r ∈ opcodeMap, r.selects 0x0600003F#32 = true) ∧
    (([0#32] : List Word).length + 1 = framelen 0x06000040#32 ∧
      ∀ r ∈ opcodeMap, r.selects 0x06000040#32 = false) ∧
    [1#32, 2#32, 3#32].length + 1 < framelen 0x01000008#32 := by decide

/-- A complete frame that decodes. -/
theorem witness_OpcodeMapIsUnambiguous :
    ([] : List Word).length + 1 = framelen 0x02000000#32 ∧
    decode (0x02000000#32 :: [] ++ []) = .command (.update []) [] := by decide

/-- A header for each clause, `LEN` at 0 and at its largest. -/
theorem witness_FrameLengthFollowsOpcodeAndLen :
    opcodeOf 0x01000000#32 = 0x01#8 ∧ opcodeOf 0x02000000#32 = 0x02#8 ∧ opcodeOf 0x0200FFFF#32 = 0x02#8 ∧
    opcodeOf 0x06000000#32 = 0x06#8 ∧ opcodeOf 0x07000000#32 = 0x07#8 ∧
    (opcodeOf 0xFFFFFFFF#32 ≠ 0x01#8 ∧ opcodeOf 0xFFFFFFFF#32 ≠ 0x02#8 ∧
      opcodeOf 0xFFFFFFFF#32 ≠ 0x06#8 ∧ opcodeOf 0xFFFFFFFF#32 ≠ 0x07#8) ∧
    opcodeOf 0x02000005#32 = opcodeOf 0x02FF0005#32 ∧
    (0x02000005#32 : Word).toNat % 65536 = (0x02FF0005#32 : Word).toNat % 65536 := by decide

/-- No byte, five bytes and the most bytes of a chunk. -/
theorem witness_ChunkBytesArePackedLowLaneFirst :
    ([] : List Word).length = ((0#16).toNat + 3) / 4 ∧
    [0x34333231#32, 0x00000035#32].length = ((5#16).toNat + 3) / 4 ∧
    (List.replicate 16384 0#32).length = ((0xFFFF#16).toNat + 3) / 4 := by
  rw [List.length_replicate]
  decide

/-- CRC-8 with one more untaken response word than the block buffers, the host not ready, and a `RESET` with as
many words behind it as the block takes ahead. -/
def backedUp : State :=
  { crc8 true with
    cmd := 0x03000000#32 :: List.replicate Config.commandDepth 0#32
    rsp := List.replicate (Config.responseDepth + 1) 0#32
    rspReady := false }

/-- A command waiting, alone and behind untaken responses, and an empty channel. -/
theorem witness_StepRunsTheDecodedCommand :
    ((queued [0x03000000#32, 9#32]).rst = false ∧
      decode (queued [0x03000000#32, 9#32]).cmd = .command .reset [9#32]) ∧
    (backedUp.rst = false ∧
      decode backedUp.cmd = .command .reset (List.replicate Config.commandDepth 0#32)) ∧
    (crc8 true).rst = false ∧ (crc8 true).cmd = [] :=
  ⟨by decide +kernel, ⟨rfl, rfl⟩, by decide +kernel⟩

/-- The input at 1 in the middle of a stream. -/
theorem witness_HardResetUninitializesAndEmptiesChannels :
    (driveReset true ((queued [0x02000005#32]).withFsm .accumulating)).rst = true := by
  decide +kernel

/-- A frame two words short; one more leaves it short, two complete it. -/
theorem witness_TruncatedFrameIsStuckUntilCompletedOrReset :
    ((queued [0x02000005#32]).rst = false ∧ (queued [0x02000005#32]).cmd = 0x02000005#32 :: [] ∧
      ([] : List Word).length + 1 < framelen 0x02000005#32) ∧
    (sendCommand [1#32] (queued [0x02000005#32]) = some (queued [0x02000005#32, 1#32]) ∧
      ([] : List Word).length + 1 + [1#32].length < framelen 0x02000005#32) ∧
    (sendCommand [1#32, 2#32] (queued [0x02000005#32]) = some (queued [0x02000005#32, 1#32, 2#32]) ∧
      framelen 0x02000005#32 ≤ ([] : List Word).length + 1 + [1#32, 2#32].length) ∧
    (queued [0x02000005#32]).stalled = false :=
  ⟨by decide +kernel, ⟨rfl, by decide⟩, ⟨rfl, by decide⟩, rfl⟩

/-- An unassigned opcode on either side of the assigned ones, a reserved bit, and a legal header that is
answered. -/
theorem witness_IllegalHeaderIsAnsweredIllegalCommand :
    IllegalHeader 0x00000000#32 ∧ IllegalHeader 0x09000000#32 ∧ IllegalHeader 0x08000100#32 ∧
    (([] : List Word).length + 1 = framelen 0x00000000#32 ∧ ([] : List Word).length + 1 = framelen 0x09000000#32 ∧
      ([] : List Word).length + 1 = framelen 0x08000100#32) ∧
    (queued [0x00000000#32]).stalled = false ∧ ¬ IllegalHeader 0x03000000#32 ∧ ([] : List Word).length + 1 = framelen 0x03000000#32 ∧
    ∃ t, step (queued (0x03000000#32 :: [] ++ [])) = .next t :=
  ⟨by decide, by decide, by decide, by decide, rfl, by decide, by decide, _, rfl⟩

/-- `REFLECT` of 33 bits, answered with `RangeError`. -/
theorem witness_FailingCommandChangesNoState :
    ((queued (0x06000021#32 :: [1#32] ++ [7#32])).rst = false ∧ [1#32].length + 1 = framelen 0x06000021#32 ∧
      ∃ t, step (queued (0x06000021#32 :: [1#32] ++ [7#32])) = .next t ∧ t.rsp = [] ++ 0x06000003#32 :: []) ∧
    (0x06000003#32 : Word).extractLsb' 0 4 ≠ 0#4 := by
  refine ⟨⟨by decide +kernel, by decide, _, rfl, by decide +kernel⟩, by decide⟩

/-- Each ground: no descriptor, no table mode, an illegal operand just above its range, and none. -/
theorem witness_ErrorsAreRaisedExactlyOnTheirGrounds :
    (needsDescriptor (.tread 0#8) = true ∧ State.reset.fsm = .uninitialized) ∧
    (crc8 false).mode = false ∧
    operandsLegal (.reflect 33#6 0#32) = false ∧ operandsLegal (.tbuild 33#8 0#32) = false ∧
    (Inv (crc8 true) ∧ (crc8 true).fsm ≠ .uninitialized ∧ (crc8 true).mode = true ∧
      operandsLegal (.reflect 32#6 0#32) = true ∧ operandsLegal (.tread 255#8) = true) :=
  ⟨by decide, by decide +kernel, by decide, by decide, (inv_crc8 true).1, (inv_crc8 true).2,
    by decide +kernel, by decide, by decide⟩

/-- A command answered with a payload, and one answered with an error. -/
theorem witness_OneResponseFramePerCommand :
    (∃ t, exec .reset (crc8 true) = .next t) ∧ ∃ t, exec .reset State.reset = .next t :=
  ⟨⟨_, rfl⟩, _, rfl⟩

/-- A failing `TREAD`, a command that then answers, and a state in which one then faults. -/
theorem witness_ErrorsAreNotSticky :
    (∃ t u, exec (.tread 0#8) (crc8 false) = .next t ∧ t.rsp = (crc8 false).rsp ++ [0x08000002#32] ∧
      (0x08000002#32 : Word).extractLsb' 0 4 ≠ 0#4 ∧ exec .reset (crc8 false) = .next u) ∧
    ∃ t, exec (.reflect 33#6 0#32) ((crc8 true).withTable []) = .next t ∧
      t.rsp = ((crc8 true).withTable []).rsp ++ [0x06000003#32] ∧
      exec (.tread 0#8) ((crc8 true).withTable []) = .fault .tableEntryAbsent :=
  ⟨⟨_, _, rfl, by decide +kernel, by decide, rfl⟩, _, rfl, by decide +kernel, rfl⟩

/-- The legal widths, and widths next to the smallest and the largest. -/
theorem witness_InitLoadsTheDescriptor :
    (8#8 = 8#8 ∨ 8#8 = 16#8 ∨ 8#8 = 24#8 ∨ 8#8 = 32#8) ∧ (32#8 = 8#8 ∨ 32#8 = 16#8 ∨ 32#8 = 24#8 ∨ 32#8 = 32#8) ∧
    (7#8 ≠ 8#8 ∧ 7#8 ≠ 16#8 ∧ 7#8 ≠ 24#8 ∧ 7#8 ≠ 32#8) ∧
    (33#8 ≠ 8#8 ∧ 33#8 ≠ 16#8 ∧ 33#8 ≠ 24#8 ∧ 33#8 ≠ 32#8) := by decide

/-- Two different prior states. -/
theorem witness_InitLeavesNothingOfThePriorState :
    legalWidth 32#8 = true ∧ Inv (crc8 true) ∧ Inv (crc32 true) ∧ crc8 true ≠ crc32 true :=
  ⟨by decide, (inv_crc8 true).1, inv_crc32.1, fun h => absurd (congrArg State.width h) (by decide +kernel)⟩

/-- Both strategies, the widest configuration, and the largest register values of the narrowest and the widest
fold with their outermost bits. -/
theorem witness_UpdateFoldsTheChunk :
    ((∀ tmode, Inv (crc8 tmode) ∧ (crc8 tmode).fsm ≠ .uninitialized) ∧
      Inv (crc32 true) ∧ (crc32 true).fsm ≠ .uninitialized) ∧
    0xFF ≤ mask 8 ∧ 0xFFFFFFFF ≤ mask 32 ∧ 0 < 8 ∧ 7 < 8 ∧ 23 < 32 - 8 ∧ 32 ≤ 32 :=
  ⟨⟨inv_crc8, inv_crc32⟩, by decide⟩

/-- Rule R79 with the values of 95_test_vectors.md section 2.3's width: 0x31 enters 24 bits at the top byte. -/
theorem test_fold_width24 :
    fold 0xB704CE 0x31 false 24 = 0x8604CE ∧ fold 0xB704CE 0x31 true 24 = 0x3B04CE := by decide

/-- With and without a descriptor. -/
theorem witness_ResetReloadsTheInitialValue :
    (crc8 true).fsm ≠ .uninitialized ∧ State.reset.fsm = .uninitialized := ⟨(inv_crc8 true).2, rfl⟩

/-- Narrowest and widest, unreflected and reflected. -/
theorem witness_FinalizeReflectsThenXors :
    (Inv (crc8 false) ∧ (crc8 false).fsm ≠ .uninitialized ∧ (crc8 false).refout = false) ∧
    Inv (crc32 true) ∧ (crc32 true).fsm ≠ .uninitialized ∧ (crc32 true).refout = true :=
  ⟨⟨(inv_crc8 false).1, (inv_crc8 false).2, by decide +kernel⟩, inv_crc32.1, inv_crc32.2, by decide +kernel⟩

/-- A configuration that passes, and the same with a wrong check value. -/
theorem witness_SelftestIsResetUpdateFinalizeCompare :
    Inv (crc8 true) ∧ (crc8 true).fsm ≠ .uninitialized ∧
    seen .selftest (crc8 true) = some ([0x05000000#32, 1#32], 0xF4#32, .finalized) ∧
    seen .selftest { crc8 true with check := 0x1F4#32 } = some ([0x05000000#32, 0#32], 0xF4#32, .finalized) :=
  ⟨(inv_crc8 true).1, (inv_crc8 true).2, by decide +kernel, by decide +kernel⟩

/-- A row of the known-vector table. -/
theorem witness_KnownVectorsPassTheSelftest :
    ((8#8, 0x07#32, 0#32, 0#32, false, false, 0xF4#32) : BitVec 8 × Word × Word × Word × Bool × Bool × Word) ∈
      [(8#8, 0x07#32, 0#32, 0#32, false, false, 0xF4#32)] := by decide

/-- The bit counts at either side of the bound. -/
theorem witness_ReflectReversesTheLowBits :
    (0#6).toNat ≤ 32 ∧ (32#6).toNat ≤ 32 ∧ 32 < (33#6).toNat ∧ 32 < (63#6).toNat := by decide

/-- A legal width with two polynomials equal below it, and an illegal width. -/
theorem witness_TbuildAnswersTheTable :
    legalWidth 8#8 = true ∧ (0x107#32).toNat % 2 ^ (8#8).toNat = (0x07#32).toNat % 2 ^ (8#8).toNat ∧
    legalWidth 32#8 = true ∧ legalWidth 0#8 = false ∧ legalWidth 255#8 = false := by decide

/-- A block in table mode, one without a descriptor, and one in bitwise mode. -/
theorem witness_TreadAnswersTheBuiltEntry :
    (Inv (crc32 true) ∧ (crc32 true).fsm ≠ .uninitialized ∧ (crc32 true).mode = true) ∧
    State.reset.fsm = .uninitialized ∧ (crc8 false).mode = false :=
  ⟨⟨inv_crc32.1, inv_crc32.2, by decide +kernel⟩, rfl, by decide +kernel⟩

/-- A command that writes the register and the state machine, and one that writes neither. -/
theorem witness_CommandsOtherThanInitKeepTheirFrame :
    (Instr.reset.opcode ≠ 0x01#8 ∧ ∃ t, exec .reset ((crc8 true).withReg 1#32) = .next t ∧
      t.reg ≠ ((crc8 true).withReg 1#32).reg) ∧
    (Instr.finalize.opcode ≠ 0x01#8 ∧ ∃ t, exec .finalize (crc8 true) = .next t ∧ t.fsm ≠ (crc8 true).fsm) :=
  ⟨⟨by decide, _, rfl, by decide +kernel⟩, by decide, _, rfl, by decide +kernel⟩

/-- A command with and without a descriptor, in bitwise mode, and a step in an initialized state. -/
theorem witness_StateMachineFollowsTheTransitionTable :
    (∃ t, exec .finalize (crc8 true) = .next t) ∧
    (needsDescriptor .selftest = true ∧ State.reset.fsm = .uninitialized) ∧ (crc8 false).mode = false ∧
    ((crc8 true).rst = false ∧ (crc8 true).fsm ≠ .uninitialized ∧ ∃ t, step (crc8 true) = .next t) ∧
    Fsm.finalized ≠ .uninitialized :=
  ⟨⟨_, rfl⟩, by decide, by decide +kernel, ⟨by decide +kernel, (inv_crc8 true).2, _, rfl⟩, by decide⟩

/-- A step that runs a command, in a state that meets the invariant. -/
theorem witness_EveryStepKeepsTheInvariant :
    Inv (queued [0x03000000#32]) ∧ ∃ t, step (queued [0x03000000#32]) = .next t ∧ t.cmd = [] :=
  ⟨⟨(inv_crc8 true).1.memory, (inv_crc8 true).1.width, (inv_crc8 true).1.masked, (inv_crc8 true).1.table⟩,
    _, rfl, rfl⟩

/-- A reachable state in either mode, and a payload it answers. -/
theorem witness_StoredAndReturnedValuesFitTheWidth :
    (∀ tmode, Reachable (afterInit tmode) ∧ (afterInit tmode).fsm = .ready ∧ (afterInit tmode).mode = tmode) ∧
    Instr.reset.opcode = 0x03#8 ∧
    ∃ t, exec .reset (afterInit true) = .next t ∧ t.rsp = (afterInit true).rsp ++ [0x03000000#32, 0#32] :=
  ⟨reachable_afterInit, by decide, _, rfl, by decide +kernel⟩

/-- A state that meets the invariant, and a reachable state with a descriptor. -/
theorem witness_ReachableStatesAreSafe : Inv (crc8 true) ∧ Reachable (afterInit true) :=
  ⟨(inv_crc8 true).1, (reachable_afterInit true).1⟩

/-- A reachable state with a complete frame and a word behind it, the host ready; and a reachable state with no
untaken word, the host not ready. -/
theorem witness_EveryCompleteFrameIsAnswered :
    (∃ t, Reachable t ∧ t.rst = false ∧ t.rspReady = true ∧ t.cmd = 0x06000021#32 :: [1#32] ++ [9#32]) ∧
    (∃ t, Reachable t ∧ t.rst = false ∧ t.rsp.length ≤ Config.responseDepth ∧ t.rspReady = false ∧
      t.cmd = 0x06000021#32 :: [1#32] ++ []) ∧
    [1#32].length + 1 = framelen 0x06000021#32 :=
  ⟨⟨_, .send _ _ [0x06000021#32, 1#32, 9#32] (reachable_afterInit true).1 rfl, rfl, rfl, rfl⟩,
    ⟨_, .ready _ false (.send _ _ [0x06000021#32, 1#32] .reset rfl), rfl, Nat.zero_le _, rfl, rfl⟩, by decide⟩

/-- CRC-8 with exactly as many untaken response words as the block buffers, the host not ready, and a `RESET`
waiting: not stalled, one response word short of it. -/
def atResponseDepth : State :=
  { crc8 true with
    cmd := [0x03000000#32]
    rsp := List.replicate Config.responseDepth 0#32
    rspReady := false }

/-- A stalled block with exactly as many command words as it takes ahead. -/
def atCommandDepth : State := { backedUp with cmd := List.replicate Config.commandDepth 0#32 }

/-- At exactly `responseDepth` untaken words the block is not stalled: it takes command words, and its step takes
the frame. -/
theorem witness_BackPressure_at_responseDepth :
    atResponseDepth.rst = false ∧ atResponseDepth.rspReady = false ∧
    atResponseDepth.rsp.length = Config.responseDepth ∧ atResponseDepth.stalled = false ∧
    ∃ t, step atResponseDepth = .next t ∧ t.cmd = [] := by
  have hlen : atResponseDepth.rsp.length = Config.responseDepth := List.length_replicate
  have hs : atResponseDepth.stalled = false := (stalled_eq_false_iff _).2 (.inr (Nat.le_of_eq hlen))
  exact ⟨rfl, rfl, hlen, hs, _,
    step_complete (h := 0x03000000#32) (ops := []) (rest := []) rfl hs rfl (by decide), rfl⟩

/-- At exactly `commandDepth` words a stalled block, one response word past `responseDepth`, takes no more. -/
theorem witness_BackPressure_at_commandDepth :
    atCommandDepth.rst = false ∧ atCommandDepth.rspReady = false ∧
    atCommandDepth.rsp.length = Config.responseDepth + 1 ∧ atCommandDepth.cmd.length = Config.commandDepth ∧
    commandReady atCommandDepth = false := by
  have hrsp : atCommandDepth.rsp.length = Config.responseDepth + 1 := List.length_replicate
  have hcmd : atCommandDepth.cmd.length = Config.commandDepth := List.length_replicate
  have hs : atCommandDepth.stalled = true := (stalled_iff _).2 ⟨rfl, by omega⟩
  exact ⟨rfl, rfl, hrsp, hcmd, by simp [commandReady, hs, hcmd]⟩

/-- A backed-up block with a command waiting and no more words taken ahead, a step that takes a frame, and a
response word to take. The two theorems before it show the bounds themselves. -/
theorem witness_BackPressureStallsTheBlockAndDropsNothing :
    (backedUp.rst = false ∧ backedUp.rspReady = false ∧ Config.responseDepth < backedUp.rsp.length ∧
      decode backedUp.cmd = .command .reset (List.replicate Config.commandDepth 0#32) ∧
      Config.commandDepth ≤ backedUp.cmd.length) ∧
    (∃ t, step (queued [0x03000000#32]) = .next t ∧ t.cmd = []) ∧
    (∃ t, step (driveReady false (queued [0x03000000#32])) = .next t) ∧
    (queued []).rspReady = true ∧ ∃ w ws, (afterInit true).rsp = w :: ws := by
  refine ⟨⟨rfl, rfl, ?_, rfl, ?_⟩, ⟨_, rfl, rfl⟩, ?_, rfl, _, _, rfl⟩
  · show _ < (List.replicate (Config.responseDepth + 1) 0#32).length
    rw [List.length_replicate]
    exact Nat.lt_succ_self _
  · show _ ≤ (0x03000000#32 :: List.replicate Config.commandDepth 0#32).length
    rw [List.length_cons, List.length_replicate]
    exact Nat.le_succ _
  · exact ⟨_, rfl⟩

/-- The bounds of the width. -/
theorem witness_MaskSetsExactlyTheLowBits : 0 ≤ 32 ∧ 32 ≤ 32 := by decide

/-- The bounds of the operands, a value within its mask, and two values equal below it. -/
theorem witness_ReflectIsALinearInvolution :
    0 < 2 ^ 32 ∧ 0xFFFFFFFF < 2 ^ 32 ∧ 0 ≤ 32 ∧ 32 ≤ 32 ∧ 0xA5 ≤ mask 8 ∧
    0x1A5 &&& mask 8 = 0xA5 &&& mask 8 := by decide

/-- A legal width, and a polynomial with its top bit clear and one with it set. -/
theorem witness_TableIsLinearInItsIndex :
    (8 = 8 ∨ 8 = 16 ∨ 8 = 24 ∨ 8 = 32) ∧ (0x07 &&& mask 8).testBit 7 = false ∧ (0x9B &&& mask 8).testBit 7 = true := by
  decide

/-- The legal widths at the bounds, indices at the bounds, and the largest register value. -/
theorem witness_BitwiseStepFollowsFromShiftAndXor :
    (8 = 8 ∨ 8 = 16 ∨ 8 = 24 ∨ 8 = 32) ∧ (32 = 8 ∨ 32 = 16 ∨ 32 = 24 ∨ 32 = 32) ∧ 0 < 128 ∧ 127 < 128 ∧
    0xFFFFFFFF < 2 ^ 32 := by decide

/-- A table, and two states that differ in strategy. -/
theorem witness_StrategiesAreEquivalent :
    (0xFF ≤ mask 8 ∧ ∀ b, b < 256 → (crc8 true).table.read b = (buildTable 0x07 8)[b]?) ∧
    Inv (crc8 true) ∧ Inv (crc8 false) ∧ (crc8 true).fsm ≠ .uninitialized ∧
    SameButStrategy (crc8 true) (crc8 false) ∧ Instr.selftest.opcode ≠ 0x08#8 :=
  ⟨⟨by decide, (table_built table_crc8).2⟩, (inv_crc8 true).1, (inv_crc8 false).1, (inv_crc8 true).2,
    rfl, by decide⟩

/-- An initialized state in either mode. -/
theorem witness_ChunkingDoesNotChangeTheStream :
    ∀ tmode, Inv (crc8 tmode) ∧ (crc8 tmode).fsm ≠ .uninitialized := inv_crc8

/-- An initialized state and a legal width. -/
theorem witness_ResetThenFinalizeAnswersTheInitialValue :
    (crc32 true).fsm ≠ .uninitialized ∧ legalWidth 32#8 = true := ⟨inv_crc32.2, by decide⟩

/-- An initialized state and the state its `FINALIZE` leaves. -/
theorem witness_FinalizeDoesNotEndTheStream :
    Inv (crc32 true) ∧ (crc32 true).fsm ≠ .uninitialized ∧ ∃ t, exec .finalize (crc32 true) = .next t :=
  ⟨inv_crc32.1, inv_crc32.2, _, rfl⟩

/-- An initialized state in either mode. -/
theorem witness_CrcOfAChunkDependsOnDescriptorAndBytes :
    ∀ tmode, Inv (crc8 tmode) ∧ (crc8 tmode).fsm ≠ .uninitialized := inv_crc8

end Sys2Proof.Tests
end

section
/-! The mask (rule R9): the scope family's obligation, from the bits of the mask. -/

namespace Sys2Proof.Machine

theorem mask_add_one (w : Nat) : mask w + 1 = 2 ^ w := Nat.sub_add_cancel Nat.one_le_two_pow

/-- Settles O32: `mask_add_one` gives the value and `mask_testBit` the bits, for every width; the five
values of rule R9 are computed. -/
theorem maskSetsExactlyTheLowBits : Obligations.MaskSetsExactlyTheLowBits := by
  refine ⟨fun w _ => ⟨mask_add_one w, mask_testBit w⟩, ?_⟩
  decide

end Sys2Proof.Machine
end

section
/-! The invariant of the block (rules R14, R21, R23) along everything a host can do, and the state family's
obligation: what a reachable block stores and answers fits the width. -/

namespace Sys2Proof.Machine

/-! ## What `INIT`, `REFLECT`, `TBUILD` and a step can answer -/

/-- The state in which a successful `INIT` answers (rule R84). -/
def State.initialized (s : State) (width : BitVec 8) (refin refout tmode : Bool)
    (poly initv xorout check : Word) : State :=
  (((s.withDescriptor width refin refout tmode (maskOperand width poly) (maskOperand width initv)
    (maskOperand width xorout) check).withTable
      (if tmode then s.table.store 0 (buildTable poly.toNat width.toNat) else s.table)).withReg
        (maskOperand width initv)).withFsm .ready

/-- `INIT` answers in every state: an error at an illegal width, or else the loaded descriptor (rule R84). -/
theorem execInit_eq_next {width : BitVec 8} {refin refout tmode : Bool} {poly initv xorout check : Word}
    {s t : State} (h : execInit width refin refout tmode poly initv xorout check s = .next t) :
    (legalWidth width = false ∧ t = s.emit [responseHeader 0x01#8 (some .configError)]) ∨
    (legalWidth width = true ∧
      t = (s.initialized width refin refout tmode poly initv xorout check).emit
        [responseHeader 0x01#8 none]) := by
  unfold execInit at h
  split at h
  · exact .inr ⟨‹_›, (respond_eq_next _ _ _ _).1 h⟩
  · exact .inl ⟨Bool.eq_false_iff.2 ‹_›, (raise_eq_next _ _ _ _).1 h⟩

/-- `REFLECT` answers in every state and only answers (rule R69). -/
theorem execReflect_eq_next {n : BitVec 6} {value : Word} {s t : State} (h : execReflect n value s = .next t) :
    (legalCount n = false ∧ t = s.emit [responseHeader 0x06#8 (some .rangeError)]) ∨
    (legalCount n = true ∧
      t = s.emit [responseHeader 0x06#8 none, BitVec.ofNat 32 (reflect value.toNat n.toNat)]) := by
  unfold execReflect at h
  split at h
  · exact .inr ⟨‹_›, (respond_eq_next _ _ _ _).1 h⟩
  · exact .inl ⟨Bool.eq_false_iff.2 ‹_›, (raise_eq_next _ _ _ _).1 h⟩

/-- `TBUILD` answers in every state and only answers (rule R75). -/
theorem execTbuild_eq_next {width : BitVec 8} {poly : Word} {s t : State}
    (h : execTbuild width poly s = .next t) :
    (legalWidth width = false ∧ t = s.emit [responseHeader 0x07#8 (some .configError)]) ∨
    (legalWidth width = true ∧
      t = s.emit (responseHeader 0x07#8 none :: buildTable poly.toNat width.toNat)) := by
  unfold execTbuild at h
  split at h
  · exact .inr ⟨‹_›, (respond_eq_next _ _ _ _).1 h⟩
  · exact .inl ⟨Bool.eq_false_iff.2 ‹_›, (raise_eq_next _ _ _ _).1 h⟩

/-- A step that answers is a hard reset, a step that waits, the answer to an illegal header, or a command
(rules R31, R101, R112, R113, R124). -/
theorem step_eq_next {s t : State} (h : step s = .next t) :
    (s.rst = true ∧ t = hardReset s) ∨
    (s.rst = false ∧ (decode s.cmd = .idle ∨ s.stalled = true ∧ decode s.cmd ≠ .incomplete) ∧ t = s) ∨
    (∃ hdr why rest, s.rst = false ∧ s.stalled = false ∧ decode s.cmd = .illegal hdr why rest ∧
      t = (s.withCommands rest).emit [responseHeader (opcodeOf hdr) (some .illegalCommand)]) ∨
    (∃ i rest, s.rst = false ∧ s.stalled = false ∧ decode s.cmd = .command i rest ∧
      exec i (s.withCommands rest) = .next t) := by
  unfold step at h
  split at h
  · cases h
    exact .inl ⟨‹_›, rfl⟩
  · have hrst : s.rst = false := Bool.eq_false_iff.2 ‹_›
    split at h
    · cases h
      exact .inr (.inl ⟨hrst, .inl ‹_›, rfl⟩)
    · cases h
    · rename_i hdr why rest hd
      split at h
      · cases h
        exact .inr (.inl ⟨hrst, .inr ⟨‹_›, by simp [hd]⟩, rfl⟩)
      · exact .inr (.inr (.inl ⟨hdr, why, rest, hrst, Bool.eq_false_iff.2 ‹_›, hd, (raise_eq_next _ _ _ _).1 h⟩))
    · rename_i i rest hd
      split at h
      · cases h
        exact .inr (.inl ⟨hrst, .inr ⟨‹_›, by simp [hd]⟩, rfl⟩)
      · exact .inr (.inr (.inr ⟨i, rest, hrst, Bool.eq_false_iff.2 ‹_›, hd, h⟩))

/-! ## The invariant under the updates of the state -/

theorem inv_reset : Inv State.reset where
  memory := Memory.wf_nil
  width h := absurd rfl h
  masked h := absurd rfl h
  table h := absurd rfl h

/-- The invariant speaks of the elements of rule R13 and not of the channels and inputs. -/
theorem Inv.withPorts {s : State} (hs : Inv s) (cmd rsp : List Word) (rst rspReady : Bool) :
    Inv { s with cmd, rsp, rst, rspReady } := ⟨hs.memory, hs.width, hs.masked, hs.table⟩

theorem inv_hardReset (s : State) : Inv (hardReset s) := inv_reset.withPorts ..

theorem Inv.emit {s : State} (hs : Inv s) (ws : List Word) : Inv (s.emit ws) := hs.withPorts ..

theorem Inv.withCommands {s : State} (hs : Inv s) (ws : List Word) : Inv (s.withCommands ws) := hs.withPorts ..

/-- With a descriptor loaded, `FSM` may change. -/
theorem Inv.withFsm {s : State} (hs : Inv s) (hf : s.fsm ≠ .uninitialized) (f : Fsm) : Inv (s.withFsm f) :=
  ⟨hs.memory, fun _ => hs.width hf, fun _ => hs.masked hf, fun _ => hs.table hf⟩

/-- A masked value may be written to `REG` (rule R93). -/
theorem Inv.withReg {s : State} (hs : Inv s) {r : Word} (hr : r.toNat ≤ mask s.width.toNat) :
    Inv (s.withReg r) :=
  ⟨hs.memory, hs.width, fun hf => ⟨hr, (hs.masked hf).2⟩, hs.table⟩

/-! ## Bounds that follow from the invariant -/

/-- Storing a masked value in a word cannot lift it above the mask. -/
theorem toNat_ofNat_le_mask {v w : Nat} (hv : v ≤ mask w) : (BitVec.ofNat 32 v).toNat ≤ mask w :=
  (Nat.mod_le v _).trans hv

theorem tableEntry_and_mask (poly w b : Nat) : tableEntry (poly &&& mask w) w b = tableEntry poly w b := by
  rw [tableEntry, Nat.and_assoc, Nat.and_self, tableEntry]

/-- The table does not depend on the bits of the polynomial above the width (rule R73). -/
theorem buildTable_maskOperand {w : BitVec 8} (hw : legalWidth w = true) (poly : Word) :
    buildTable (maskOperand w poly).toNat w.toNat = buildTable poly.toNat w.toNat := by
  rw [maskOperand_toNat hw, ← and_mask]
  simp only [buildTable, tableEntry_and_mask]

/-- With a table built every entry reads, and fits the width (rules R21, R23). -/
theorem Inv.read_le_mask {s : State} (hs : Inv s) (hf : s.fsm ≠ .uninitialized) (hm : s.mode = true) {b : Nat}
    (hb : b < Config.tableSize) : ∃ e : Word, s.table.read b = some e ∧ e.toNat ≤ mask s.width.toNat :=
  ⟨_, (hs.table hf hm b hb).trans (buildTable_getElem? _ _ b hb), toNat_ofNat_le_mask (tableEntry_le _ _ b)⟩

/-! ## The invariant along commands, steps and the host's actions -/

/-- A successful `INIT` establishes the invariant for the new descriptor: the operands are masked, and in
table mode the table is the one of the masked polynomial (rules R21, R23, R84). -/
theorem Inv.initialized {s : State} (hs : Inv s) {width : BitVec 8} (hw : legalWidth width = true)
    (refin refout tmode : Bool) (poly initv xorout check : Word) :
    Inv (s.initialized width refin refout tmode poly initv xorout check) where
  memory := by
    cases tmode
    · exact hs.memory
    · exact Memory.wf_store hs.memory (by rw [buildTable_length, Nat.zero_add])
  width _ := hw
  masked _ := ⟨maskOperand_le_mask hw _, maskOperand_le_mask hw _, maskOperand_le_mask hw _,
    maskOperand_le_mask hw _⟩
  table _ hm b hb := by
    cases tmode
    · cases hm
    · change (s.table.store 0 (buildTable poly.toNat width.toNat)).read b
        = (buildTable (maskOperand width poly).toNat width.toNat)[b]?
      rw [buildTable_maskOperand hw, Memory.read_store, buildTable_length, if_pos ⟨Nat.zero_le b, by omega⟩,
        Nat.sub_zero]

/-- Every command keeps the invariant (rules R14, R21, R23, R93). -/
theorem exec_keeps_inv {i : Instr} {s t : State} (hs : Inv s) (h : exec i s = .next t) : Inv t := by
  cases i with
  | init =>
    obtain ⟨-, rfl⟩ | ⟨hw, rfl⟩ := execInit_eq_next h
    · exact hs.emit _
    · exact (hs.initialized hw ..).emit _
  | update =>
    obtain ⟨-, rfl⟩ | ⟨r, hf, hr, rfl⟩ := execUpdate_eq_next h
    · exact hs.emit _
    · obtain ⟨hreg, -, -, -⟩ := hs.masked hf
      have hr' := toNat_ofNat_le_mask (foldBytes_le hreg hr)
      exact ((hs.withReg hr').withFsm hf _).emit _
  | reset =>
    obtain ⟨-, rfl⟩ | ⟨hf, rfl⟩ := execReset_eq_next h
    · exact hs.emit _
    · obtain ⟨-, -, hinitv, -⟩ := hs.masked hf
      exact ((hs.withReg hinitv).withFsm hf _).emit _
  | finalize =>
    obtain ⟨-, rfl⟩ | ⟨hf, rfl⟩ := execFinalize_eq_next h
    · exact hs.emit _
    · exact (hs.withFsm hf _).emit _
  | selftest =>
    obtain ⟨-, rfl⟩ | ⟨r, hf, hr, rfl⟩ := execSelftest_eq_next h
    · exact hs.emit _
    · obtain ⟨-, -, hinitv, -⟩ := hs.masked hf
      have hr' := toNat_ofNat_le_mask (foldBytes_le hinitv hr)
      exact ((hs.withReg hr').withFsm hf _).emit _
  | reflect => obtain ⟨-, rfl⟩ | ⟨-, rfl⟩ := execReflect_eq_next h <;> exact hs.emit _
  | tbuild => obtain ⟨-, rfl⟩ | ⟨-, rfl⟩ := execTbuild_eq_next h <;> exact hs.emit _
  | tread => obtain ⟨-, rfl⟩ | ⟨e, -, -, -, rfl⟩ := execTread_eq_next h <;> exact hs.emit _

/-- Every step keeps the invariant, from any state that meets it. -/
theorem step_keeps_inv {s t : State} (hs : Inv s) (h : step s = .next t) : Inv t := by
  obtain ⟨-, rfl⟩ | ⟨-, -, rfl⟩ | ⟨hdr, why, rest, -, -, -, rfl⟩ | ⟨i, rest, -, -, -, hi⟩ := step_eq_next h
  · exact inv_hardReset s
  · exact hs
  · exact (hs.withCommands rest).emit _
  · exact exec_keeps_inv (hs.withCommands rest) hi

/-- A word that moves to the host leaves the rest of the response channel, and nothing else changes (rule
R30). -/
theorem takeResponse_eq_some {s t : State} {w : Word} (h : takeResponse s = some (w, t)) :
    s.rst = false ∧ s.rspReady = true ∧ ∃ ws, s.rsp = w :: ws ∧ t = { s with rsp := ws } := by
  unfold takeResponse at h
  split at h
  · cases h
  · rename_i hports
    obtain ⟨hrst, hready⟩ : s.rst = false ∧ s.rspReady = true := by simpa using hports
    split at h
    · cases h
    · cases h
      exact ⟨hrst, hready, _, ‹_›, rfl⟩

/-- Every state a host can bring the block to meets the invariant. -/
theorem Reachable.inv {s : State} (h : Reachable s) : Inv s := by
  induction h with
  | reset => exact inv_reset
  | send s t ws _ hsend ih => exact sendCommand_eq_some hsend ▸ ih.withPorts ..
  | take s t w _ htake ih =>
    obtain ⟨-, -, ws, -, rfl⟩ := takeResponse_eq_some htake
    exact ih.withPorts ..
  | drive s level _ ih => exact ih.withPorts ..
  | ready s level _ ih => exact ih.withPorts ..
  | step s t _ hstep ih => exact step_keeps_inv ih hstep

/-! ## Payloads -/

/-- The one payload word of `UPDATE`, `RESET`, `FINALIZE` or `TREAD` fits the width (rule R21). -/
theorem exec_payload_le_mask {i : Instr} {s t : State} {hdr v : Word} (hs : Inv s)
    (hf : s.fsm ≠ .uninitialized)
    (hi : i.opcode = 0x02#8 ∨ i.opcode = 0x03#8 ∨ i.opcode = 0x04#8 ∨ i.opcode = 0x08#8)
    (h : exec i s = .next t) (hrsp : t.rsp = s.rsp ++ [hdr, v]) : v.toNat ≤ mask s.width.toNat := by
  obtain ⟨hreg, -, hinitv, -⟩ := hs.masked hf
  cases i with
  | init | selftest | reflect | tbuild => simp [Instr.opcode] at hi
  | update =>
    obtain ⟨-, rfl⟩ | ⟨r, -, hr, rfl⟩ := execUpdate_eq_next h
    · simp at hrsp
    · obtain ⟨-, rfl⟩ : _ ∧ BitVec.ofNat 32 r = v := by simpa using hrsp
      exact toNat_ofNat_le_mask (foldBytes_le hreg hr)
  | reset =>
    obtain ⟨-, rfl⟩ | ⟨-, rfl⟩ := execReset_eq_next h
    · simp at hrsp
    · obtain ⟨-, rfl⟩ : _ ∧ s.initv = v := by simpa using hrsp
      exact hinitv
  | finalize =>
    obtain ⟨-, rfl⟩ | ⟨-, rfl⟩ := execFinalize_eq_next h
    · simp at hrsp
    · obtain ⟨-, rfl⟩ : _ ∧ BitVec.ofNat 32 (finalizeValue _ _ _ _) = v := by simpa using hrsp
      exact toNat_ofNat_le_mask (finalizeValue_le _ _ _ _)
  | tread index =>
    obtain ⟨-, rfl⟩ | ⟨e, -, hm, he, rfl⟩ := execTread_eq_next h
    · simp at hrsp
    · obtain ⟨-, rfl⟩ : _ ∧ e = v := by simpa using hrsp
      obtain ⟨e', he', hle⟩ := hs.read_le_mask hf hm (b := index.toNat) index.isLt
      rw [he, Option.some.injEq] at he'
      exact he' ▸ hle

/-- Settles O29: a reachable state meets the invariant, which masks the registers and gives the table, and
`exec_payload_le_mask` bounds the answers. -/
theorem storedAndReturnedValuesFitTheWidth : Obligations.StoredAndReturnedValuesFitTheWidth := by
  intro s hreach hf
  have hs := hreach.inv
  obtain ⟨hreg, hpoly, hinitv, hxorout⟩ := hs.masked hf
  exact ⟨hreg, hpoly, hinitv, hxorout, fun hm _ hb => hs.read_le_mask hf hm hb,
    fun _ _ _ _ hi hexec hrsp => exec_payload_le_mask hs hf hi hexec hrsp⟩

end Sys2Proof.Machine
end

section
/-! Chunk bytes in an `UPDATE` frame (rules R35, R49, R56), and the memory family's obligation: the lanes of
the operand words, the fields of a legal `UPDATE` header, and the decoder on its frame. -/

namespace Sys2Proof

/-! ## The lanes of the data words (rule R35) -/

theorem wordBytes_getElem? (w : Word) {l : Nat} (hl : l < 4) :
    (wordBytes w)[l]? = some (w.extractLsb' (8 * l) 8) := by
  interval_cases l <;> rfl

/-- Byte `k` of the data words is lane `k mod 4` of word `k div 4`; past the last word there is no byte. -/
theorem flatMap_wordBytes_getElem? (ws : List Word) (k : Nat) :
    (ws.flatMap wordBytes)[k]? = ws[k / 4]?.map (·.extractLsb' (8 * (k % 4)) 8) := by
  induction ws generalizing k with
  | nil => rfl
  | cons w ws ih =>
    rw [List.flatMap_cons]
    by_cases hk : k < 4
    · rw [List.getElem?_append_left hk, wordBytes_getElem? w hk, Nat.div_eq_of_lt hk, Nat.mod_eq_of_lt hk]
      rfl
    · obtain ⟨j, rfl⟩ := Nat.exists_eq_add_of_le' (Nat.le_of_not_lt hk)
      rw [List.getElem?_append_right (Nat.le_add_left 4 j), wordBytes_length, Nat.add_sub_cancel, ih,
        Nat.add_mod_right, Nat.add_div_right j (by decide), List.getElem?_cons_succ]

/-- A byte of the chunk is its lane of the data words, whatever the pad lanes hold (rules R35, R56). -/
theorem unpackBytes_getElem? {data : List Word} {len k : Nat} (hk : k < len) (hdata : k / 4 < data.length) :
    (unpackBytes data len)[k]? = some ((data.getD (k / 4) 0#32).extractLsb' (8 * (k % 4)) 8) := by
  rw [unpackBytes, List.getElem?_take_of_lt hk, flatMap_wordBytes_getElem?, List.getD_eq_getElem?_getD,
    List.getElem?_eq_getElem hdata]
  rfl

/-! ## A legal `UPDATE` header (rules R49, R54) -/

/-- The legal `UPDATE` header of a given `LEN` (rule R49). -/
def updateHeader (len : BitVec 16) : Word := 0x02#8 ++ 0#8 ++ len

theorem opcodeOf_updateHeader (len : BitVec 16) : opcodeOf (updateHeader len) = 0x02#8 := by
  rw [opcodeOf, updateHeader, BitVec.extractLsb'_append_eq_of_le (by decide)]
  rfl

theorem len_updateHeader (len : BitVec 16) : (updateHeader len).extractLsb' 0 16 = len :=
  BitVec.extractLsb'_append_eq_right

theorem reservedZero_updateHeader (len : BitVec 16) : reservedZero (updateHeader len) 16 8 = true := by
  rw [reservedZero, updateHeader, BitVec.extractLsb'_append_eq_of_le (by decide)]
  rfl

theorem framelen_updateHeader (len : BitVec 16) : framelen (updateHeader len) = 1 + (len.toNat + 3) / 4 := by
  rw [framelen, opcodeOf_updateHeader, if_neg (by decide), if_pos rfl, len_updateHeader,
    Nat.shiftRight_eq_div_pow]

theorem decodeFrame_updateHeader (len : BitVec 16) (ops : List Word) :
    decodeFrame (updateHeader len) ops = some (.update (unpackBytes ops len.toNat)) := by
  rw [decodeFrame, opcodeOf_updateHeader, if_neg (by decide), if_pos rfl, reservedZero_updateHeader, if_pos rfl,
    len_updateHeader]

/-- A complete frame with a legal `UPDATE` header decodes to the chunk its data words carry (rules R56, R57). -/
theorem decode_updateFrame {len : BitVec 16} {ops : List Word} (rest : List Word)
    (hops : ops.length = (len.toNat + 3) / 4) :
    decode (updateHeader len :: ops ++ rest) = .command (.update (unpackBytes ops len.toNat)) rest := by
  rw [Machine.decode_complete _ _ _ (by rw [framelen_updateHeader]; omega), decodeFrame_updateHeader]

/-- Settles O6: the frame decodes to its unpacked data words (`decode_updateFrame`), which hold `LEN` bytes
because they have at least as many lanes, and each byte is its lane (`unpackBytes_getElem?`). -/
theorem chunkBytesArePackedLowLaneFirst : Obligations.ChunkBytesArePackedLowLaneFirst := by
  intro len ops rest hops
  exact ⟨unpackBytes ops len.toNat, decode_updateFrame rest hops, unpackBytes_length _ _ (by omega),
    fun k hk => unpackBytes_getElem? hk (by omega)⟩

end Sys2Proof
end

section
/-! Encoding and decoding (rules R47 to R58, R66), and the encoding family's obligations: a word is its
fields, each header format is its opcode, its reserved bits and its fields, and what a header's operand words
add to its command. -/

namespace Sys2Proof

/-! ## The fields of a word -/

/-- A range of bits is two fields exactly when its upper and its lower part are the fields. -/
theorem extractLsb'_eq_append_iff {m n w lo : Nat} {a : BitVec m} {b : BitVec n} {x : BitVec w} :
    x.extractLsb' lo (m + n) = a ++ b ↔ x.extractLsb' (lo + n) m = a ∧ x.extractLsb' lo n = b := by
  rw [← BitVec.extractLsb'_append_extractLsb'_eq_extractLsb' rfl]
  constructor
  · intro h
    have hl := congrArg (BitVec.extractLsb' n m) h
    have hr := congrArg (BitVec.extractLsb' 0 n) h
    rw [BitVec.extractLsb'_append_eq_left, BitVec.extractLsb'_append_eq_left] at hl
    rw [BitVec.extractLsb'_append_eq_right, BitVec.extractLsb'_append_eq_right] at hr
    exact ⟨hl, hr⟩
  · rintro ⟨rfl, rfl⟩
    rfl

theorem append_eq_iff {m n : Nat} {a : BitVec m} {b : BitVec n} {x : BitVec (m + n)} :
    a ++ b = x ↔ x.extractLsb' n m = a ∧ x.extractLsb' 0 n = b := by
  rw [eq_comm]
  simpa using extractLsb'_eq_append_iff (a := a) (b := b) (x := x) (lo := 0)

theorem extractLsb'_eq_ofBool_iff {b : Bool} {h : Word} {k : Nat} :
    h.extractLsb' k 1 = BitVec.ofBool b ↔ h.getLsbD k = b := by
  have one_bit : ∀ (v : BitVec 1) (b : Bool), v = BitVec.ofBool b ↔ (v == 1#1) = b := by decide
  rw [BitVec.getLsbD_eq_extractLsb', one_bit]

theorem reservedZero_iff {h : Word} {lo len : Nat} :
    reservedZero h lo len = true ↔ h.extractLsb' lo len = 0#len := beq_iff_eq

/-- The formats but `I`: an opcode, one reserved field and one field of the command (rules R49, R51 to R53). -/
theorem header_eq_iff {z n : Nat} {opc : BitVec 8} {f : BitVec n} {h : BitVec (8 + z + n)} :
    opc ++ 0#z ++ f = h ↔
      h.extractLsb' (n + z) 8 = opc ∧ (h.extractLsb' n z == 0#z) = true ∧ h.extractLsb' 0 n = f := by
  rw [append_eq_iff, extractLsb'_eq_append_iff, and_assoc, beq_iff_eq]

/-- The mask of an opcode-map row but `INIT`'s selects on the opcode and the reserved field (rule R55). -/
theorem and_rowMask_iff {z n : Nat} {opc : BitVec 8} {h : BitVec (8 + z + n)} :
    (h &&& (BitVec.allOnes 8 ++ BitVec.allOnes z ++ 0#n) == opc ++ 0#z ++ 0#n) = true ↔
      h.extractLsb' (n + z) 8 = opc ∧ (h.extractLsb' n z == 0#z) = true := by
  have low : n ≤ n + z := Nat.le_add_right n z
  rw [beq_iff_eq, eq_comm, header_eq_iff, BitVec.extractLsb'_and, BitVec.extractLsb'_and,
    BitVec.extractLsb'_and, BitVec.extractLsb'_append_eq_right, BitVec.extractLsb'_append_eq_of_le low,
    Nat.add_sub_cancel_left, BitVec.extractLsb'_append_eq_left,
    BitVec.extractLsb'_append_eq_of_le (Nat.le_refl n), Nat.sub_self, BitVec.extractLsb'_append_eq_right]
  simp only [BitVec.and_allOnes, BitVec.and_zero, and_true]

/-! ## The headers of the eight commands (rules R48 to R53) -/

theorem encodeHeader_init_eq_iff {width : BitVec 8} {refin refout tmode : Bool}
    {poly initv xorout check h : Word} :
    encodeHeader (.init width refin refout tmode poly initv xorout check) = h ↔
      opcodeOf h = 0x01#8 ∧ reservedZero h 19 5 = true ∧ h.getLsbD 18 = tmode ∧ h.getLsbD 17 = refout ∧
      h.getLsbD 16 = refin ∧ reservedZero h 8 8 = true ∧ h.extractLsb' 0 8 = width := by
  rw [encodeHeader, append_eq_iff, extractLsb'_eq_append_iff, extractLsb'_eq_append_iff,
    extractLsb'_eq_append_iff, extractLsb'_eq_append_iff, extractLsb'_eq_append_iff,
    extractLsb'_eq_ofBool_iff, extractLsb'_eq_ofBool_iff, extractLsb'_eq_ofBool_iff,
    ← reservedZero_iff, ← reservedZero_iff]
  simp only [and_assoc]
  rfl

theorem updateHeader_eq_iff {len : BitVec 16} {h : Word} :
    updateHeader len = h ↔
      opcodeOf h = 0x02#8 ∧ reservedZero h 16 8 = true ∧ h.extractLsb' 0 16 = len :=
  header_eq_iff

/-- Format `N`: `RESET`, `FINALIZE` and `SELFTEST` are their opcodes (rule R50). -/
theorem bareHeader_eq_iff {opc : BitVec 8} {h : Word} :
    opc ++ 0#24 = h ↔ opcodeOf h = opc ∧ reservedZero h 0 24 = true := by
  rw [reservedZero_iff]
  exact append_eq_iff

theorem encodeHeader_reflect_eq_iff {n : BitVec 6} {value h : Word} :
    encodeHeader (.reflect n value) = h ↔
      opcodeOf h = 0x06#8 ∧ reservedZero h 6 18 = true ∧ h.extractLsb' 0 6 = n :=
  header_eq_iff

theorem encodeHeader_tbuild_eq_iff {width : BitVec 8} {poly h : Word} :
    encodeHeader (.tbuild width poly) = h ↔
      opcodeOf h = 0x07#8 ∧ reservedZero h 8 16 = true ∧ h.extractLsb' 0 8 = width :=
  header_eq_iff

theorem encodeHeader_tread_eq_iff {index : BitVec 8} {h : Word} :
    encodeHeader (.tread index) = h ↔
      opcodeOf h = 0x08#8 ∧ reservedZero h 8 16 = true ∧ h.extractLsb' 0 8 = index :=
  header_eq_iff

/-! ## The rows of the opcode map (rule R55) -/

/-- The match word of the row is the `INIT` header with every field 0. -/
theorem selects_init_iff {h : Word} :
    OpcodeRow.selects ⟨"INIT", 0x01000000#32, 0xFFF8FF00#32⟩ h = true ↔
      opcodeOf h = 0x01#8 ∧ reservedZero h 19 5 = true ∧ reservedZero h 8 8 = true := by
  have ones8 (x : BitVec 8) : x &&& 255#8 = x := BitVec.and_allOnes
  have ones5 (x : BitVec 5) : x &&& 31#5 = x := BitVec.and_allOnes
  rw [OpcodeRow.selects, beq_iff_eq, eq_comm]
  refine (encodeHeader_init_eq_iff (width := 0) (refin := false) (refout := false) (tmode := false)
    (poly := 0) (initv := 0) (xorout := 0) (check := 0)).trans ?_
  simp [opcodeOf, reservedZero, BitVec.extractLsb'_and, ones8, ones5]

/-! ## Legal headers (rules R55, R57, R58) -/

/-- The opcode is a command's and every reserved bit of its format is 0. -/
def LegalHeader (h : Word) : Prop :=
  (opcodeOf h = 0x01#8 ∧ reservedZero h 19 5 = true ∧ reservedZero h 8 8 = true) ∨
  (opcodeOf h = 0x02#8 ∧ reservedZero h 16 8 = true) ∨
  (opcodeOf h = 0x03#8 ∧ reservedZero h 0 24 = true) ∨
  (opcodeOf h = 0x04#8 ∧ reservedZero h 0 24 = true) ∨
  (opcodeOf h = 0x05#8 ∧ reservedZero h 0 24 = true) ∨
  (opcodeOf h = 0x06#8 ∧ reservedZero h 6 18 = true) ∨
  (opcodeOf h = 0x07#8 ∧ reservedZero h 8 16 = true) ∨
  (opcodeOf h = 0x08#8 ∧ reservedZero h 8 16 = true)

/-- A header is legal exactly when it selects a row of the opcode map. -/
theorem exists_row_selects_iff {h : Word} : (∃ r ∈ opcodeMap, r.selects h = true) ↔ LegalHeader h := by
  simp only [opcodeMap, List.mem_cons, List.not_mem_nil, or_false, exists_eq_or_imp, exists_eq_left]
  exact or_congr selects_init_iff <|
    or_congr (and_rowMask_iff (z := 8) (n := 16) (opc := 0x02#8)) <|
    or_congr (and_rowMask_iff (z := 24) (n := 0) (opc := 0x03#8)) <|
    or_congr (and_rowMask_iff (z := 24) (n := 0) (opc := 0x04#8)) <|
    or_congr (and_rowMask_iff (z := 24) (n := 0) (opc := 0x05#8)) <|
    or_congr (and_rowMask_iff (z := 18) (n := 6) (opc := 0x06#8)) <|
    or_congr (and_rowMask_iff (z := 16) (n := 8) (opc := 0x07#8))
      (and_rowMask_iff (z := 16) (n := 8) (opc := 0x08#8))

/-- One test of the decoder: it accepts here, or later in the chain. -/
theorem or_of_ite_eq_some {α : Type} {p q : Prop} [Decidable p] [Decidable q] {x y : α} {later : Option α}
    (h : (if p then if q then some x else none else later) = some y) : p ∧ q ∨ later = some y := by
  by_cases hp : p
  · by_cases hq : q
    · exact .inl ⟨hp, hq⟩
    · rw [if_pos hp, if_neg hq] at h
      cases h
  · exact .inr ((if_neg hp).symm.trans h)

/-- The decoder accepts no other header, whatever the operand words. -/
theorem legalHeader_of_decodeFrame {h : Word} {ops : List Word} {i : Instr} (hd : decodeFrame h ops = some i) :
    LegalHeader h := by
  unfold decodeFrame at hd
  refine (or_of_ite_eq_some hd).imp (And.imp_right Bool.and_eq_true_iff.1) fun hd => ?_
  iterate 6 refine (or_of_ite_eq_some hd).imp_right fun hd => ?_
  exact (or_of_ite_eq_some hd).resolve_right (Option.some_ne_none i).symm

/-- Every legal header is the header of a command. -/
theorem LegalHeader.exists_encodeHeader {h : Word} (hh : LegalHeader h) :
    ∃ i : Instr, i.WellFormed ∧ encodeHeader i = h := by
  obtain ⟨ho, hz, hz'⟩ | ⟨ho, hz⟩ | hh | hh | hh | ⟨ho, hz⟩ | ⟨ho, hz⟩ | ⟨ho, hz⟩ := hh
  · exact ⟨.init _ _ _ _ 0 0 0 0, rfl, encodeHeader_init_eq_iff.2 ⟨ho, hz, rfl, rfl, rfl, hz', rfl⟩⟩
  · have hlen := (h.extractLsb' 0 16).isLt
    refine ⟨.update (List.replicate (h.extractLsb' 0 16).toNat 0), decide_eq_true ?_, ?_⟩
    · rw [List.length_replicate]
      exact Nat.le_of_lt_succ hlen
    · rw [encodeHeader, List.length_replicate, BitVec.ofNat_toNat, BitVec.setWidth_eq]
      exact updateHeader_eq_iff.2 ⟨ho, hz, rfl⟩
  · exact ⟨.reset, rfl, bareHeader_eq_iff.2 hh⟩
  · exact ⟨.finalize, rfl, bareHeader_eq_iff.2 hh⟩
  · exact ⟨.selftest, rfl, bareHeader_eq_iff.2 hh⟩
  · exact ⟨.reflect _ 0, rfl, encodeHeader_reflect_eq_iff.2 ⟨ho, hz, rfl⟩⟩
  · exact ⟨.tbuild _ 0, rfl, encodeHeader_tbuild_eq_iff.2 ⟨ho, hz, rfl⟩⟩
  · exact ⟨.tread _, rfl, encodeHeader_tread_eq_iff.2 ⟨ho, hz, rfl⟩⟩

/-! ## The operand words (rules R48 to R53, R56) -/

/-- The command with its operands, but for the length of its chunk, taken from these words. -/
def Instr.withOperands (ops : List Word) : Instr → Instr
  | .init width refin refout tmode _ _ _ _ =>
    .init width refin refout tmode (ops.getD 0 0) (ops.getD 1 0) (ops.getD 2 0) (ops.getD 3 0)
  | .update bytes => .update (unpackBytes ops bytes.length)
  | .reflect n _ => .reflect n (ops.getD 0 0)
  | .tbuild width _ => .tbuild width (ops.getD 0 0)
  | .reset => .reset
  | .finalize => .finalize
  | .selftest => .selftest
  | .tread index => .tread index

/-- A command's own operand words give the command. -/
theorem withOperands_encodeOperands (i : Instr) : i.withOperands (encodeOperands i) = i := by
  cases i with
  | update bytes => exact congrArg Instr.update (unpackBytes_packBytes bytes)
  | _ => rfl

/-- The decoder on the header of a command, whatever the operand words. -/
theorem decodeFrame_encodeHeader {i : Instr} (hi : i.WellFormed) (ops : List Word) :
    decodeFrame (encodeHeader i) ops = some (i.withOperands ops) := by
  cases i with
  | init width refin refout tmode poly initv xorout check =>
    obtain ⟨ho, hz, ht, hro, hri, hz', hw⟩ := encodeHeader_init_eq_iff.1
      (Eq.refl (encodeHeader (.init width refin refout tmode poly initv xorout check)))
    rw [decodeFrame, if_pos ho, hz, hz', ht, hro, hri, hw]
    rfl
  | update bytes =>
    have hlen : (BitVec.ofNat 16 bytes.length).toNat = bytes.length :=
      Nat.mod_eq_of_lt (Nat.lt_succ_of_le (of_decide_eq_true hi))
    exact (decodeFrame_updateHeader _ ops).trans (by rw [hlen]; rfl)
  | reset => rfl
  | finalize => rfl
  | selftest => rfl
  | reflect n value =>
    obtain ⟨ho, hz, hn⟩ := encodeHeader_reflect_eq_iff.1 (Eq.refl (encodeHeader (.reflect n value)))
    rw [decodeFrame, ho, hz, hn]
    rfl
  | tbuild width poly =>
    obtain ⟨ho, hz, hw⟩ := encodeHeader_tbuild_eq_iff.1 (Eq.refl (encodeHeader (.tbuild width poly)))
    rw [decodeFrame, ho, hz, hw]
    rfl
  | tread index =>
    obtain ⟨ho, hz, hx⟩ := encodeHeader_tread_eq_iff.1 (Eq.refl (encodeHeader (.tread index)))
    rw [decodeFrame, ho, hz, hx]
    rfl

theorem wellFormed_withOperands {i : Instr} (hi : i.WellFormed) (ops : List Word) :
    (i.withOperands ops).WellFormed := by
  cases i with
  | update bytes =>
    exact decide_eq_true ((List.length_take_le _ _).trans (of_decide_eq_true hi))
  | _ => rfl

/-- As many operand words as the command has give as many chunk bytes as it has. -/
theorem unpackBytes_length_of_encodeOperands {bytes : List Byte} {ops : List Word}
    (hops : ops.length = (encodeOperands (.update bytes)).length) :
    (unpackBytes ops bytes.length).length = bytes.length := by
  rw [encodeOperands, packBytes_length] at hops
  exact unpackBytes_length _ _ (by omega)

/-- The header does not depend on the operand words. -/
theorem encodeHeader_withOperands {i : Instr} {ops : List Word}
    (hops : ops.length = (encodeOperands i).length) : encodeHeader (i.withOperands ops) = encodeHeader i := by
  cases i with
  | update bytes =>
    rw [Instr.withOperands, encodeHeader, unpackBytes_length_of_encodeOperands hops, encodeHeader]
  | _ => rfl

/-- But for a chunk, the operands are the operand words. -/
theorem encodeOperands_withOperands {i : Instr} {ops : List Word}
    (hops : ops.length = (encodeOperands i).length) (hi : ∀ bytes, i.withOperands ops ≠ .update bytes) :
    encodeOperands (i.withOperands ops) = ops := by
  cases i with
  | update => exact absurd rfl (hi _)
  | init => match ops, hops with | [_, _, _, _], _ => rfl
  | reflect | tbuild => match ops, hops with | [_], _ => rfl
  | reset | finalize | selftest | tread => exact (List.length_eq_zero_iff.1 hops).symm

/-- A chunk packed again: its bytes in their lanes, and 0 in the pad lanes (rule R66). -/
theorem packBytes_unpackBytes_getElem? {ops : List Word} {len k : Nat} (hops : ops.length = (len + 3) / 4)
    (hk : k < 4 * ops.length) :
    ((packBytes (unpackBytes ops len)).flatMap wordBytes)[k]?
      = if k < len then (ops.flatMap wordBytes)[k]? else some 0#8 := by
  have hlen : (unpackBytes ops len).length = len := unpackBytes_length _ _ (by omega)
  rw [flatMap_wordBytes_packBytes, hlen]
  split_ifs with hkl
  · rw [List.getElem?_append_left (by omega), unpackBytes, List.getElem?_take_of_lt hkl]
  · rw [List.getElem?_append_right (by omega), List.getElem?_replicate_of_lt (by omega)]

/-- For a chunk, the operands are the operand words with 0 in the pad lanes (rule R66). -/
theorem encodeOperands_withOperands_update {i : Instr} {ops : List Word} {bytes : List Byte}
    (hops : ops.length = (encodeOperands i).length) (hi : i.withOperands ops = .update bytes) :
    (encodeOperands (.update bytes)).length = ops.length ∧
      ∀ k, k < 4 * ops.length → ((encodeOperands (.update bytes)).flatMap wordBytes)[k]?
        = if k < bytes.length then (ops.flatMap wordBytes)[k]? else some 0#8 := by
  cases i with
  | update chunk =>
    obtain rfl : unpackBytes ops chunk.length = bytes := Instr.update.inj hi
    have hlen := unpackBytes_length_of_encodeOperands hops
    rw [encodeOperands, packBytes_length] at hops
    rw [encodeOperands, packBytes_length, hlen]
    exact ⟨hops.symm, fun k hk => packBytes_unpackBytes_getElem? hops hk⟩
  | _ => cases hi

/-! ## The decoder on a complete frame (rules R54, R57) -/

/-- The header of an encoding measures it. -/
theorem framelen_encodeHeader {i : Instr} (hi : i.WellFormed) :
    framelen (encodeHeader i) = (encodeOperands i).length + 1 := by
  cases i with
  | init => exact Laws.FrameLength.init _ _ _ _ _ _ _ _ hi
  | update => exact Laws.FrameLength.update _ hi
  | reset => exact Laws.FrameLength.reset hi
  | finalize => exact Laws.FrameLength.finalize hi
  | selftest => exact Laws.FrameLength.selftest hi
  | reflect => exact Laws.FrameLength.reflect _ _ hi
  | tbuild => exact Laws.FrameLength.tbuild _ _ hi
  | tread => exact Laws.FrameLength.tread _ hi

/-- A command's header before as many words as the command has operand words decodes to the command with
these operands. -/
theorem decode_encodeHeader {i : Instr} (hi : i.WellFormed) {ops : List Word} (rest : List Word)
    (hops : ops.length = (encodeOperands i).length) :
    decode (encodeHeader i :: ops ++ rest) = .command (i.withOperands ops) rest := by
  rw [Machine.decode_complete _ _ _ (by rw [framelen_encodeHeader hi, hops]), decodeFrame_encodeHeader hi]

/-- A complete frame with a legal header is a command's header and as many words as it has operand words. -/
theorem LegalHeader.frame {h : Word} (hh : LegalHeader h) {ops : List Word} (hl : ops.length + 1 = framelen h) :
    ∃ i : Instr, i.WellFormed ∧ encodeHeader i = h ∧ ops.length = (encodeOperands i).length := by
  obtain ⟨i, hi, rfl⟩ := hh.exists_encodeHeader
  rw [framelen_encodeHeader hi] at hl
  exact ⟨i, hi, rfl, Nat.succ.inj hl⟩

/-- A complete frame with any other header is the verdict `Illegal` (rule R58). -/
theorem decode_of_not_legalHeader {h : Word} (hh : ¬ LegalHeader h) {ops : List Word} (rest : List Word)
    (hl : ops.length + 1 = framelen h) :
    decode (h :: ops ++ rest) = .illegal h (illegalReason h) rest := by
  have hnone : decodeFrame h ops = none :=
    Option.eq_none_iff_forall_ne_some.2 fun _ hd => hh (legalHeader_of_decodeFrame hd)
  rw [Machine.decode_complete h ops rest hl, hnone]

/-! ## The obligations -/

/-- Settles O2: a command's own operand words give it back (`withOperands_encodeOperands`), and a frame that
decodes is the header of a command whose operands are the frame's words, chunk bytes lane by lane. -/
theorem encodingIsTheInverseOfDecoding : Obligations.EncodingIsTheInverseOfDecoding := by
  refine ⟨fun i rest hi => ?_, fun h ops rest i hl hd => ?_⟩
  · rw [encode, decode_encodeHeader hi rest rfl, withOperands_encodeOperands]
  · by_cases hh : LegalHeader h
    · obtain ⟨j, hj, rfl, hops⟩ := hh.frame hl
      obtain rfl : j.withOperands ops = i := by
        rw [decode_encodeHeader hj rest hops, Decoded.command.injEq] at hd
        exact hd.1
      refine ⟨wellFormed_withOperands hj ops, encodeHeader_withOperands hops,
        encodeOperands_withOperands hops, fun bytes hb => ?_⟩
      rw [hb]
      exact encodeOperands_withOperands_update hops hb
    · rw [decode_of_not_legalHeader hh rest hl] at hd
      cases hd

/-- Settles O3: the rows select the legal headers (`exists_row_selects_iff`), which are the headers of the
commands; every other header is the verdict `Illegal`. -/
theorem decodingIsTotal : Obligations.DecodingIsTotal := by
  refine ⟨fun h ops rest hl => ⟨fun hrow => ?_, fun hrow => ?_⟩, Machine.decode_incomplete, rfl⟩
  · obtain ⟨i, hi, rfl, hops⟩ := (exists_row_selects_iff.1 hrow).frame hl
    exact ⟨i.withOperands ops, wellFormed_withOperands hi ops, decode_encodeHeader hi rest hops⟩
  · have hh : ¬ LegalHeader h := fun hh => by
      obtain ⟨r, hr, hs⟩ := exists_row_selects_iff.2 hh
      exact Bool.false_ne_true ((hrow r hr).symm.trans hs)
    exact ⟨illegalReason h, decode_of_not_legalHeader hh rest hl⟩

end Sys2Proof
end

section
/-! The algebra of `reflect` (rule R68): the reflector family's obligation, from the bits of the reflected
value. -/

namespace Sys2Proof.Machine

/-- Rule R68 (c): bits `n` and above pass through. -/
theorem reflect_testBit_of_le {v n k : Nat} (hv : v < 2 ^ 32) (hk : n ≤ k) :
    (reflect v n).testBit k = v.testBit k := by
  rw [reflect_testBit hv, if_neg (Nat.not_lt.2 hk)]

/-- Rule R68 (a): below `n` bit `k` comes back from `n-1-k`; from `n` up nothing moves. -/
theorem reflect_reflect {v n : Nat} (hv : v < 2 ^ 32) (hn : n ≤ 32) : reflect (reflect v n) n = v := by
  apply Nat.eq_of_testBit_eq
  intro k
  have hr : reflect v n < 2 ^ 32 := reflect_lt (Nat.le_refl 32) hn hv
  by_cases hk : k < n
  · have hback : n - 1 - (n - 1 - k) = k := by omega
    rw [reflect_testBit hr, if_pos hk, reflect_testBit hv, if_pos (by omega), hback]
  · have hk : n ≤ k := Nat.not_lt.1 hk
    rw [reflect_testBit_of_le hr hk, reflect_testBit_of_le hv hk]

/-- Rule R68 (b): a field of at most one bit is its own reverse. -/
theorem reflect_of_le_one {v n : Nat} (hv : v < 2 ^ 32) (hn : n ≤ 1) : reflect v n = v := by
  apply Nat.eq_of_testBit_eq
  intro k
  by_cases hk : k < n
  · have hfixed : n - 1 - k = k := by omega
    rw [reflect_testBit hv, if_pos hk, hfixed]
  · exact reflect_testBit_of_le hv (Nat.not_lt.1 hk)

/-- Masking to the reflected field commutes with reflecting it (rule R68 (c)). -/
theorem reflect_and_mask {v n : Nat} (hv : v < 2 ^ 32) : reflect (v &&& mask n) n = reflect v n &&& mask n := by
  have hm : v &&& mask n < 2 ^ 32 := Nat.lt_of_le_of_lt Nat.and_le_left hv
  apply Nat.eq_of_testBit_eq
  intro k
  rw [Nat.testBit_and, reflect_testBit hm, reflect_testBit hv, mask_testBit]
  by_cases hk : k < n
  · simp [hk, mask_testBit, show n - 1 - k < n by omega]
  · simp [hk, mask_testBit]

/-- A value within the field stays within it (rule R68 (c)). -/
theorem reflect_le_mask {v n : Nat} (hn : n ≤ 32) (hv : v ≤ mask n) : reflect v n ≤ mask n :=
  (le_mask_iff _ _).2 (reflect_lt hn (Nat.le_refl n) ((le_mask_iff _ _).1 hv))

/-- `reflect` only moves bits, so it distributes over exclusive-or (rule R68 (d)). -/
theorem reflect_xor {u v : Nat} (n : Nat) (hu : u < 2 ^ 32) (hv : v < 2 ^ 32) :
    reflect (u ^^^ v) n = reflect u n ^^^ reflect v n := by
  apply Nat.eq_of_testBit_eq
  intro k
  rw [Nat.testBit_xor, reflect_testBit (Nat.xor_lt_two_pow hu hv), reflect_testBit hu, reflect_testBit hv]
  split <;> exact Nat.testBit_xor ..

/-- Rule R68 (e): at 32 bits the whole word is reversed. -/
theorem reflect_32_testBit {v k : Nat} (hv : v < 2 ^ 32) (hk : k < 32) :
    (reflect v 32).testBit k = v.testBit (31 - k) := by
  rw [reflect_testBit hv, if_pos hk]

/-- Settles O33: one lemma per clause; equal low bits are equal masked values, which `reflect_and_mask`
carries to the reflected values. -/
theorem reflectIsALinearInvolution : Obligations.ReflectIsALinearInvolution := by
  intro v n hv hn
  refine ⟨reflect_reflect hv hn, reflect_of_le_one hv (Nat.zero_le 1), reflect_of_le_one hv (Nat.le_refl 1),
    fun u hu heq => ?_, fun k => reflect_testBit_of_le hv, reflect_le_mask hn,
    fun u hu => reflect_xor n hu hv, fun k => reflect_32_testBit hv⟩
  rw [← reflect_and_mask hu, ← reflect_and_mask hv, heq]

end Sys2Proof.Machine
end

section
/-! The shape of every table (rule R74): the table builder family's obligation, from two facts about the
shift-and-XOR loop. A step with room at the top only shifts, and a step from the top bit alone leaves the
polynomial. -/

namespace Sys2Proof.Machine

/-! ## The shift-and-XOR loop on a register with room at the top (rule R72) -/

/-- The loop with its last iteration split off. -/
theorem bitSteps_succ (poly w k r : Nat) : bitSteps poly w (k + 1) r = bitStep poly w (bitSteps poly w k r) := by
  induction k generalizing r with
  | zero => rfl
  | succ k ih => exact ih (bitStep poly w r)

/-- `bitstep8` is seven iterations and an eighth. -/
theorem bitstep8_eq (r poly w : Nat) : bitstep8 r poly w = bitStep poly w (bitSteps poly w 7 r) :=
  bitSteps_succ poly w 7 r

/-- With the top bit clear an iteration only shifts. -/
theorem bitStep_of_lt {poly w r : Nat} (h : r <<< 1 < 2 ^ w) : bitStep poly w r = r <<< 1 := by
  have htop : r.testBit (w - 1) = false := by
    rw [Nat.shiftLeft_eq] at h
    apply Nat.testBit_lt_two_pow
    cases w with
    | zero => omega
    | succ w =>
      rw [Nat.pow_succ 2 w] at h
      rw [Nat.add_sub_cancel]
      omega
  rw [bitStep_eq, htop, and_mask_of_lt h, if_neg Bool.false_ne_true, Nat.xor_zero]

/-- As long as no bit reaches the end of the register, the loop only shifts. -/
theorem bitSteps_of_lt {poly w k r : Nat} (h : r <<< k < 2 ^ w) : bitSteps poly w k r = r <<< k := by
  induction k with
  | zero => rfl
  | succ k ih =>
    rw [Nat.shiftLeft_add] at h ⊢
    rw [bitSteps_succ, ih ((Nat.le_shiftLeft ..).trans_lt h), bitStep_of_lt h]

/-- An iteration from the top bit alone shifts it out and leaves the polynomial. -/
theorem bitStep_top (poly : Nat) {w : Nat} (hw : 0 < w) : bitStep poly w (2 ^ (w - 1)) = poly &&& mask w := by
  have hout : 2 ^ (w - 1) <<< 1 = 2 ^ w := by rw [Nat.shiftLeft_eq, pow_one, Nat.two_pow_pred_mul_two hw]
  rw [bitStep_eq, Nat.testBit_two_pow_self, if_pos rfl, hout, and_mask, Nat.mod_self, Nat.zero_xor]

/-! ## The entries (rules R73, R74) -/

/-- A byte at the top of the register fits the width. -/
theorem topByte_lt {w b : Nat} (hw : 8 ≤ w) (hb : b < 256) : b <<< (w - 8) < 2 ^ w := by
  rw [Nat.shiftLeft_eq, ← pow_mul_pow_sub 2 hw]
  exact Nat.mul_lt_mul_of_pos_right hb (Nat.two_pow_pos _)

/-- Every entry is the bitwise algorithm run on its byte at the top of the register (rule R74). -/
theorem tableEntry_eq_advanceBitwise (poly : Nat) {w b : Nat} (hw : 8 ≤ w) (hb : b < 256) :
    tableEntry poly w b = advanceBitwise (b <<< (w - 8)) (poly &&& mask w) w := by
  rw [tableEntry, and_mask_of_lt (topByte_lt hw hb), advanceBitwise]

/-- The table is linear over exclusive-or (rule R74 (c)). -/
theorem tableEntry_xor (poly w a b : Nat) :
    tableEntry poly w (a ^^^ b) = tableEntry poly w a ^^^ tableEntry poly w b := by
  rw [tableEntry, Nat.shiftLeft_xor_distrib, Nat.and_xor_distrib_right, bitstep8_xor, tableEntry, tableEntry]

/-- Rule R74 (a), from linearity. -/
theorem tableEntry_zero (poly w : Nat) : tableEntry poly w 0 = 0 := by
  have h := tableEntry_xor poly w 0 0
  rwa [Nat.xor_self, Nat.xor_self] at h

/-- Rule R74 (b): seven iterations bring the seed bit to the top, and the eighth leaves the polynomial. -/
theorem tableEntry_one (poly : Nat) {w : Nat} (hw : 8 ≤ w) : tableEntry poly w 1 = poly &&& mask w := by
  have hseed : (1 <<< (w - 8)) <<< 7 = 2 ^ (w - 1) := by
    rw [← Nat.shiftLeft_add, Nat.one_shiftLeft]
    congr 1
    omega
  have hseven : bitSteps (poly &&& mask w) w 7 (1 <<< (w - 8)) = 2 ^ (w - 1) :=
    (bitSteps_of_lt (hseed ▸ Nat.pow_lt_pow_right one_lt_two (by omega))).trans hseed
  rw [tableEntry_eq_advanceBitwise poly hw (by decide), advanceBitwise, bitstep8_eq, hseven,
    bitStep_top _ (by omega), Nat.and_assoc, Nat.and_self]

/-- Doubling the index is one more iteration on the entry: the doubled byte is the byte after one shift. -/
theorem tableEntry_two_mul (poly : Nat) {w b : Nat} (hw : 8 ≤ w) (hb : b < 128) :
    tableEntry poly w (2 * b) = bitStep (poly &&& mask w) w (tableEntry poly w b) := by
  have hshift : (2 * b) <<< (w - 8) = b <<< (w - 8) <<< 1 := by
    rw [← Nat.shiftLeft_add, Nat.add_comm, Nat.shiftLeft_add, Nat.shiftLeft_eq b, pow_one, Nat.mul_comm]
  have hroom : b <<< (w - 8) <<< 1 < 2 ^ w := hshift ▸ topByte_lt hw (by omega)
  rw [tableEntry_eq_advanceBitwise poly hw (by omega), hshift, ← bitStep_of_lt hroom,
    tableEntry_eq_advanceBitwise poly hw (by omega)]
  exact bitSteps_succ ..

/-- Rule R74 (e), both cases of the top bit. -/
theorem tableEntry_two (poly : Nat) {w : Nat} (hw : 8 ≤ w) :
    tableEntry poly w 2 = bitStep (poly &&& mask w) w (poly &&& mask w) := by
  rw [tableEntry_two_mul poly hw (b := 1) (by decide), tableEntry_one poly hw]

/-- Settles O34: the table holds `tableEntry`, which one lemma per clause describes. -/
theorem tableIsLinearInItsIndex : Obligations.TableIsLinearInItsIndex := by
  intro poly w hlegal
  have hw : 8 ≤ w := by omega
  refine ⟨buildTable_length poly w, tableEntry poly w,
    fun b hb => ⟨buildTable_getElem? poly w b hb, tableEntry_le poly w b⟩, tableEntry_zero poly w,
    tableEntry_one poly hw, fun a b _ _ => tableEntry_xor poly w a b, fun htop => ?_, fun htop => ?_,
    fun _ hb => tableEntry_eq_advanceBitwise poly hw hb⟩
  · rw [tableEntry_two poly hw, bitStep, htop, if_neg Bool.false_ne_true]
  · rw [tableEntry_two poly hw, bitStep, if_pos htop]

end Sys2Proof.Machine
end

section
/-! The two strategies of the engine and its restart (rules R83, R87, R88, R91): the engine family's
obligations. A register is its top byte and the bits below it: the loop sends the top byte to its table entry and
only shifts the rest, so both byte steps are one function, and what differs between two states in strategy
stays in strategy. -/

namespace Sys2Proof.Machine

/-! ## One byte of the two strategies (rules R80, R81, R83) -/

/-- A value is its upper part and its low `k` bits. -/
theorem shiftRight_shiftLeft_xor_mod (r k : Nat) : r >>> k <<< k ^^^ r % 2 ^ k = r := by
  apply Nat.eq_of_testBit_eq
  intro i
  by_cases hi : i < k
  · simp [Nat.testBit_shiftLeft, Nat.testBit_mod_two_pow, hi, Nat.not_le.2 hi]
  · have hk : k ≤ i := Nat.not_lt.1 hi
    simp [Nat.testBit_shiftLeft, Nat.testBit_mod_two_pow, hi, hk]

/-- Shifting out the top byte leaves the bits below it, shifted. -/
theorem shiftLeft_byte_and_mask (r : Nat) {w : Nat} (hw : 8 ≤ w) :
    r <<< 8 &&& mask w = (r % 2 ^ (w - 8)) <<< 8 := by
  rw [and_mask, Nat.shiftLeft_eq, Nat.shiftLeft_eq, ← Nat.mul_mod_mul_right, pow_sub_mul_pow 2 hw]

/-- The bits below the top byte never reach it during the eight iterations. -/
theorem bitstep8_low (poly r : Nat) {w : Nat} (hw : 8 ≤ w) :
    bitstep8 (r % 2 ^ (w - 8)) poly w = r <<< 8 &&& mask w := by
  rw [shiftLeft_byte_and_mask r hw]
  exact bitSteps_of_lt (shiftLeft_byte_and_mask r hw ▸ and_mask_lt _ _)

/-- The top byte of a masked register is an index of the table. -/
theorem topByte_lt_tableSize {w r : Nat} (hw : 8 ≤ w) (hr : r ≤ mask w) : r >>> (w - 8) < Config.tableSize := by
  rw [Nat.shiftRight_eq_div_pow, Nat.div_lt_iff_lt_mul (Nat.two_pow_pos _)]
  exact ((le_mask_iff r w).1 hr).trans_eq (pow_mul_pow_sub 2 hw).symm

/-- One byte of the bitwise strategy: the register shifted by 8 and the table entry of its top byte (rule
R83). -/
theorem advanceBitwise_eq_shift_xor_tableEntry (poly : Nat) {w r : Nat} (hw : 8 ≤ w) (hr : r ≤ mask w) :
    advanceBitwise r (poly &&& mask w) w = (r <<< 8 &&& mask w) ^^^ tableEntry poly w (r >>> (w - 8)) := by
  have hsplit := bitstep8_xor (r >>> (w - 8) <<< (w - 8)) (r % 2 ^ (w - 8)) (poly &&& mask w) w
  rw [shiftRight_shiftLeft_xor_mod, bitstep8_low _ r hw] at hsplit
  rw [tableEntry_eq_advanceBitwise poly hw (topByte_lt_tableSize hw hr), Nat.xor_comm]
  exact hsplit

/-- One byte with a built table is one byte of the bitwise strategy (rule R83). -/
theorem advanceTable_eq_advanceBitwise {w poly r : Nat} {t : Memory} (hlo : 8 ≤ w) (hhi : w ≤ 32)
    (hr : r ≤ mask w) (ht : ∀ b, b < Config.tableSize → t.read b = (buildTable poly w)[b]?) :
    advanceTable r t w = some (advanceBitwise r (poly &&& mask w) w) := by
  have hidx := topByte_lt_tableSize hlo hr
  have hentry := tableEntry_le poly w (r >>> (w - 8))
  rw [advanceTable, ht _ hidx, buildTable_getElem? poly w _ hidx, Option.map_some,
    toNat_ofNat_of_le_mask hhi hentry, Nat.and_xor_distrib_right,
    and_mask_of_lt ((le_mask_iff _ _).1 hentry), advanceBitwise_eq_shift_xor_tableEntry poly hlo hr]

/-! ## The byte steps of a state that meets the invariant (rules R82, R85) -/

/-- With a descriptor the byte step is the bitwise one, in either mode. -/
theorem Inv.byteStep_eq {s : State} (hs : Inv s) (hf : s.fsm ≠ .uninitialized) (r : Nat) (b : Byte) :
    byteStep s r b
      = some (advanceBitwise (fold r b.toNat s.refin s.width.toNat) s.poly.toNat s.width.toNat) := by
  obtain ⟨hlo, hhi⟩ := legalWidth_bounds (hs.width hf)
  obtain ⟨-, hpoly, -, -⟩ := hs.masked hf
  unfold byteStep
  split
  · rw [advanceTable_eq_advanceBitwise hlo hhi (fold_le ..) (hs.table hf ‹_›),
      and_mask_of_lt ((le_mask_iff _ _).1 hpoly)]
  · rfl

/-- With a descriptor a chunk leaves the register of the bitwise strategy, in either mode. -/
theorem Inv.foldBytes_eq {s : State} (hs : Inv s) (hf : s.fsm ≠ .uninitialized) (r : Nat) (bytes : List Byte) :
    foldBytes s r bytes = some (bitwiseRegister s r bytes) := by
  induction bytes generalizing r with
  | nil => rfl
  | cons b bs ih =>
    rw [foldBytes, hs.byteStep_eq hf]
    exact ih _

/-! ## States that differ only in strategy (rule R83) -/

/-- The state with another strategy and table. -/
def State.withStrategy (s : State) (tmode : Bool) (m : Memory) : State := { s with mode := tmode, table := m }

theorem SameButStrategy.exists_withStrategy {s s' : State} (h : SameButStrategy s s') :
    ∃ tmode m, s' = s.withStrategy tmode m := ⟨s'.mode, s'.table, h.symm⟩

/-- The answer of a command that only checks an operand: the error, or the payload and a next state. -/
theorem answer_sameButStrategy {s s' u u' : State} (hs : SameButStrategy s s') (hu : SameButStrategy u u')
    (opc : BitVec 8) (payload : List Word) (e : CommandError) (legal : Bool) :
    ∃ t t', (if legal then respond opc payload u else raise opc e s) = .next t ∧
      (if legal then respond opc payload u' else raise opc e s') = .next t' ∧
      t'.rsp = t.rsp ∧ SameButStrategy t t' := by
  obtain ⟨_, _, rfl⟩ := hs.exists_withStrategy
  obtain ⟨_, _, rfl⟩ := hu.exists_withStrategy
  cases legal <;> exact ⟨_, _, rfl, rfl, rfl, rfl⟩

/-- `RESET` with a descriptor (rule R87). -/
theorem execReset_of_descriptor {s : State} (hf : s.fsm ≠ .uninitialized) :
    execReset s = .next (((s.withReg s.initv).withFsm .ready).emit [responseHeader 0x03#8 none, s.initv]) :=
  if_neg hf

/-- `FINALIZE` with a descriptor (rule R91). -/
theorem execFinalize_of_descriptor {s : State} (hf : s.fsm ≠ .uninitialized) :
    execFinalize s = .next ((s.withFsm .finalized).emit [responseHeader 0x04#8 none,
      BitVec.ofNat 32 (finalizeValue s.reg.toNat s.width.toNat s.refout s.xorout.toNat)]) :=
  if_neg hf

/-- Every command but `TREAD` answers alike in two states that differ only in strategy, and leaves two such
states. `UPDATE` and `SELFTEST` are the only ones that read the strategy, through `foldBytes`. -/
theorem exec_sameButStrategy {i : Instr} {s s' : State} (hs : Inv s) (hs' : Inv s')
    (hf : s.fsm ≠ .uninitialized) (h : SameButStrategy s s') (hi : i.opcode ≠ 0x08#8) :
    ∃ t t', exec i s = .next t ∧ exec i s' = .next t' ∧ t'.rsp = t.rsp ∧ SameButStrategy t t' := by
  obtain ⟨tmode, m, rfl⟩ := h.exists_withStrategy
  cases i with
  | init =>
    refine answer_sameButStrategy h ?_ ..
    exact rfl
  | update =>
    exact ⟨_, _, execUpdate_of_foldBytes hf (hs.foldBytes_eq hf ..),
      execUpdate_of_foldBytes hf (hs'.foldBytes_eq hf ..), rfl, rfl⟩
  | reset => exact ⟨_, _, execReset_of_descriptor hf, execReset_of_descriptor hf, rfl, rfl⟩
  | finalize => exact ⟨_, _, execFinalize_of_descriptor hf, execFinalize_of_descriptor hf, rfl, rfl⟩
  | selftest =>
    exact ⟨_, _, execSelftest_of_foldBytes hf (hs.foldBytes_eq hf ..),
      execSelftest_of_foldBytes hf (hs'.foldBytes_eq hf ..), rfl, rfl⟩
  | reflect => exact answer_sameButStrategy h h ..
  | tbuild => exact answer_sameButStrategy h h ..
  | tread => exact absurd rfl hi

/-- Settles O35: both strategies shift the register by 8 and XOR in the entry of its top byte
(`advanceTable_eq_advanceBitwise`), so the byte step of a state that meets the invariant is the bitwise one. -/
theorem strategiesAreEquivalent : Obligations.StrategiesAreEquivalent := by
  refine ⟨fun w poly r hw hr t ht => ?_, fun s s' hs hs' hf h => ⟨fun b r _ => ?_, fun i hi => ?_⟩⟩
  · exact advanceTable_eq_advanceBitwise (by omega) (by omega) hr ht
  · obtain ⟨_, _, rfl⟩ := h.exists_withStrategy
    exact (hs.byteStep_eq hf r b).trans (hs'.byteStep_eq hf r b).symm
  · exact exec_sameButStrategy hs hs' hf h hi

/-! ## `RESET` and `FINALIZE` (rule R88) -/

theorem execAll_cons_of_next {i : Instr} {is : List Instr} {s t : State} (h : exec i s = .next t) :
    execAll (i :: is) s = execAll is t := by
  rw [execAll, h]

theorem execAll_finalize {s : State} (hf : s.fsm ≠ .uninitialized) :
    execAll [.finalize] s = .next ((s.withFsm .finalized).emit [0x04000000#32,
      BitVec.ofNat 32 (finalizeValue s.reg.toNat s.width.toNat s.refout s.xorout.toNat)]) :=
  execAll_cons_of_next (execFinalize_of_descriptor hf)

/-- `RESET` puts the initial value where `FINALIZE` takes the register. -/
theorem execAll_reset_finalize {s : State} (hf : s.fsm ≠ .uninitialized) :
    ∃ t, execAll [.reset, .finalize] s = .next t ∧
      t.rsp = s.rsp ++ [0x03000000#32, s.initv, 0x04000000#32,
        BitVec.ofNat 32 (finalizeValue s.initv.toNat s.width.toNat s.refout s.xorout.toNat)] := by
  have hreset : exec .reset s = .next _ := execReset_of_descriptor hf
  rw [execAll_cons_of_next hreset, execAll_finalize]
  · exact ⟨_, rfl, List.append_assoc ..⟩
  · nofun

/-- `INIT` with a legal width, before other commands (rule R84). -/
theorem execAll_init_cons {width : BitVec 8} (hw : legalWidth width = true) (refin refout tmode : Bool)
    (poly initv xorout check : Word) (is : List Instr) (s : State) :
    execAll (.init width refin refout tmode poly initv xorout check :: is) s
      = execAll is ((s.initialized width refin refout tmode poly initv xorout check).emit [0x01000000#32]) :=
  execAll_cons_of_next (if_pos hw)

/-- Settles O37: a fresh `INIT` leaves `REG` equal to `INITV`, as `RESET` does, so each `FINALIZE` transforms
the same value; the value of CRC-32 is computed. -/
theorem resetThenFinalizeAnswersTheInitialValue :
    Obligations.ResetThenFinalizeAnswersTheInitialValue := by
  refine ⟨fun s hf => execAll_reset_finalize hf,
    fun width refin refout tmode poly initv xorout check s hw => ?_, by decide⟩
  rw [execAll_init_cons hw, execAll_init_cons hw, ← maskOperand_toNat hw, ← maskOperand_toNat hw]
  refine ⟨_, _, execAll_finalize nofun, List.append_assoc .., rfl, ?_⟩
  obtain ⟨t', ht', hrsp⟩ := execAll_reset_finalize
    (s := (s.initialized width refin refout tmode poly initv xorout check).emit [0x01000000#32]) nofun
  exact ⟨t', ht', hrsp.trans (List.append_assoc ..)⟩

end Sys2Proof.Machine
end

section
/-! Illegal headers and errors (rules R58, R97 to R105), and the exceptions family's obligations: the reserved
bits of the formats against the fields the decoder checks, what a command's answer is, and what the step on a
complete frame can do. -/

namespace Sys2Proof

/-! ## Illegal headers, from the reserved bits of the formats (rules R48 to R53, R58) -/

/-- A field is the bits its mask keeps. -/
theorem and_fieldMask_eq_zero_iff {m z n : Nat} {h : BitVec (m + z + n)} :
    h &&& (0#m ++ BitVec.allOnes z ++ 0#n) = 0#m ++ 0#z ++ 0#n ↔ (h.extractLsb' n z == 0#z) = true := by
  have low : n ≤ n + z := Nat.le_add_right n z
  rw [eq_comm, append_eq_iff, extractLsb'_eq_append_iff, beq_iff_eq, BitVec.extractLsb'_and,
    BitVec.extractLsb'_and, BitVec.extractLsb'_and, BitVec.extractLsb'_append_eq_right,
    BitVec.extractLsb'_append_eq_of_le low, Nat.add_sub_cancel_left, BitVec.extractLsb'_append_eq_left,
    BitVec.extractLsb'_append_eq_of_le (Nat.le_refl n), Nat.sub_self, BitVec.extractLsb'_append_eq_right]
  simp only [BitVec.and_allOnes, BitVec.and_zero, true_and, and_true]

/-- Format `I` has two reserved fields (rule R48). -/
theorem and_reservedBits_init_iff {h : Word} :
    h &&& 0x00F8FF00#32 = 0#32 ↔ reservedZero h 19 5 = true ∧ reservedZero h 8 8 = true := by
  have hsplit : h &&& 0x00F8FF00#32 = h &&& 0x00F80000#32 ||| h &&& 0x0000FF00#32 :=
    BitVec.and_or_distrib_left (x := h) (y := 0x00F80000#32) (z := 0x0000FF00#32)
  rw [hsplit, BitVec.or_eq_zero_iff]
  exact and_congr (and_fieldMask_eq_zero_iff (m := 8) (z := 5) (n := 19))
    (and_fieldMask_eq_zero_iff (m := 16) (z := 8) (n := 8))

/-- Where the opcode is known, its reserved bits are the bits of one mask. -/
theorem legal_at_opcode_iff {h mask : Word} {opc : BitVec 8} {fieldsZero : Prop}
    (hmask : Machine.reservedBits opc = mask) (hfields : h &&& mask = 0#32 ↔ fieldsZero) :
    opcodeOf h = opc ∧ fieldsZero ↔ opcodeOf h = opc ∧ h &&& Machine.reservedBits (opcodeOf h) = 0#32 :=
  and_congr_right fun ho => by rw [ho, hmask, hfields]

theorem assignedOpcode_iff : ∀ opc : BitVec 8, 0x01#8 ≤ opc ∧ opc ≤ 0x08#8 ↔
    opc = 0x01#8 ∨ opc = 0x02#8 ∨ opc = 0x03#8 ∨ opc = 0x04#8 ∨ opc = 0x05#8 ∨ opc = 0x06#8 ∨
      opc = 0x07#8 ∨ opc = 0x08#8 := by
  decide

/-- The decoder's checks on the header say that the opcode is assigned and no reserved bit is set. -/
theorem legalHeader_iff_reservedBits {h : Word} :
    LegalHeader h ↔
      (0x01#8 ≤ opcodeOf h ∧ opcodeOf h ≤ 0x08#8) ∧ h &&& Machine.reservedBits (opcodeOf h) = 0#32 := by
  rw [assignedOpcode_iff]
  simp only [or_and_right]
  exact or_congr (legal_at_opcode_iff rfl and_reservedBits_init_iff) <|
    or_congr (legal_at_opcode_iff rfl (and_fieldMask_eq_zero_iff (m := 8) (z := 8) (n := 16))) <|
    or_congr (legal_at_opcode_iff rfl (and_fieldMask_eq_zero_iff (m := 8) (z := 24) (n := 0))) <|
    or_congr (legal_at_opcode_iff rfl (and_fieldMask_eq_zero_iff (m := 8) (z := 24) (n := 0))) <|
    or_congr (legal_at_opcode_iff rfl (and_fieldMask_eq_zero_iff (m := 8) (z := 24) (n := 0))) <|
    or_congr (legal_at_opcode_iff rfl (and_fieldMask_eq_zero_iff (m := 8) (z := 18) (n := 6))) <|
    or_congr (legal_at_opcode_iff rfl (and_fieldMask_eq_zero_iff (m := 8) (z := 16) (n := 8)))
      (legal_at_opcode_iff rfl (and_fieldMask_eq_zero_iff (m := 8) (z := 16) (n := 8)))

theorem unassignedOpcode_iff (opc : BitVec 8) :
    opc = 0x00#8 ∨ 0x09#8 ≤ opc ↔ ¬ (0x01#8 ≤ opc ∧ opc ≤ 0x08#8) := by
  bv_omega

/-- Cases (a) and (b) of rule R58 are the headers the decoder does not accept. -/
theorem illegalHeader_iff {h : Word} : Machine.IllegalHeader h ↔ ¬ LegalHeader h := by
  rw [Machine.IllegalHeader, unassignedOpcode_iff, legalHeader_iff_reservedBits]
  tauto

/-! ## What the decoder reads from a complete frame (rules R55, R57) -/

/-- A command has the opcode of its header, and what is left is what stands after the frame. -/
theorem opcode_and_rest_of_decode_eq_command {h : Word} {ops rest later : List Word} {i : Instr}
    (hl : ops.length + 1 = framelen h) (hd : decode (h :: ops ++ rest) = .command i later) :
    LegalHeader h ∧ i.opcode = opcodeOf h ∧ later = rest := by
  by_cases hh : LegalHeader h
  · obtain ⟨j, hj, rfl, hops⟩ := hh.frame hl
    rw [decode_encodeHeader hj rest hops, Decoded.command.injEq] at hd
    obtain ⟨rfl, rfl⟩ := hd
    exact ⟨hh, by rw [← encodeHeader_withOperands hops, opcodeOf_encodeHeader], rfl⟩
  · rw [decode_of_not_legalHeader hh rest hl] at hd
    cases hd

/-- The verdict `Illegal` names the header, which is not legal, and consumes the frame. -/
theorem header_and_rest_of_decode_eq_illegal {h hdr : Word} {ops rest later : List Word} {why : IllegalReason}
    (hl : ops.length + 1 = framelen h) (hd : decode (h :: ops ++ rest) = .illegal hdr why later) :
    ¬ LegalHeader h ∧ hdr = h ∧ later = rest := by
  by_cases hh : LegalHeader h
  · obtain ⟨j, hj, rfl, hops⟩ := hh.frame hl
    rw [decode_encodeHeader hj rest hops] at hd
    cases hd
  · rw [decode_of_not_legalHeader hh rest hl] at hd
    cases hd
    exact ⟨hh, rfl, rfl⟩

end Sys2Proof

namespace Sys2Proof.Machine

/-! ## Answers (rules R60, R62, R104) -/

/-- The answers to a command with this opcode, by their status: on success a header and any payload, on an
error one word, the state otherwise as it was. -/
inductive Answers (opc : BitVec 8) (s : State) : Option CommandError → State → Prop where
  | responded {t : State} (payload : List Word) (h : t.rsp = s.rsp ++ responseHeader opc none :: payload) :
      Answers opc s none t
  | raised (e : CommandError) : Answers opc s (some e) (s.emit [responseHeader opc (some e)])

/-- Whatever the status, the first word of an answer is its header. -/
theorem Answers.exists_rsp_eq {opc : BitVec 8} {s t : State} {e : Option CommandError}
    (h : Answers opc s e t) : ∃ payload, t.rsp = s.rsp ++ responseHeader opc e :: payload := by
  cases h with
  | responded payload h => exact ⟨payload, h⟩
  | raised => exact ⟨[], rfl⟩

theorem statusCode_eq_illegalCommand_iff (e : Option CommandError) :
    statusCode e = 4#4 ↔ e = some .illegalCommand := by
  rcases e with _ | _ | _ | _ | _ <;> decide

/-- A header tells whether its status is `IllegalCommand` (rule R62). -/
theorem eq_illegalCommand_of_responseHeader_eq {opc opc' : BitVec 8} {e : Option CommandError}
    (h : responseHeader opc e = responseHeader opc' (some .illegalCommand)) : e = some .illegalCommand := by
  rw [← statusCode_eq_illegalCommand_iff, ← responseHeader_status opc e, h, responseHeader_status, statusCode]

/-- A command that answers raises an error other than `IllegalCommand`, with no state changed before it, or
answers with status 0 (rules R97, R104). -/
theorem exec_answers {i : Instr} {s t : State} (h : exec i s = .next t) :
    ∃ e, Answers i.opcode s e t ∧ e ≠ some .illegalCommand := by
  cases i with
  | init =>
    obtain ⟨-, rfl⟩ | ⟨-, rfl⟩ := execInit_eq_next h
    · exact ⟨_, .raised _, nofun⟩
    · exact ⟨_, .responded _ rfl, nofun⟩
  | update =>
    obtain ⟨-, rfl⟩ | ⟨r, -, -, rfl⟩ := execUpdate_eq_next h
    · exact ⟨_, .raised _, nofun⟩
    · exact ⟨_, .responded _ rfl, nofun⟩
  | reset =>
    obtain ⟨-, rfl⟩ | ⟨-, rfl⟩ := execReset_eq_next h
    · exact ⟨_, .raised _, nofun⟩
    · exact ⟨_, .responded _ rfl, nofun⟩
  | finalize =>
    obtain ⟨-, rfl⟩ | ⟨-, rfl⟩ := execFinalize_eq_next h
    · exact ⟨_, .raised _, nofun⟩
    · exact ⟨_, .responded _ rfl, nofun⟩
  | selftest =>
    obtain ⟨-, rfl⟩ | ⟨r, -, -, rfl⟩ := execSelftest_eq_next h
    · exact ⟨_, .raised _, nofun⟩
    · exact ⟨_, .responded _ rfl, nofun⟩
  | reflect =>
    obtain ⟨-, rfl⟩ | ⟨-, rfl⟩ := execReflect_eq_next h
    · exact ⟨_, .raised _, nofun⟩
    · exact ⟨_, .responded _ rfl, nofun⟩
  | tbuild =>
    obtain ⟨-, rfl⟩ | ⟨-, rfl⟩ := execTbuild_eq_next h
    · exact ⟨_, .raised _, nofun⟩
    · exact ⟨_, .responded _ rfl, nofun⟩
  | tread =>
    obtain ⟨-, rfl⟩ | ⟨e, -, -, -, rfl⟩ := execTread_eq_next h
    · exact ⟨_, .raised _, nofun⟩
    · exact ⟨_, .responded _ rfl, nofun⟩

/-! ## The step on a complete frame (rules R101, R104, R124) -/

section
variable {s t : State} {h : Word} {ops rest : List Word}

/-- A block that is not stalled answers an illegal header `IllegalCommand` (rule R101). -/
theorem step_of_not_legalHeader (hrst : s.rst = false) (hc : s.cmd = h :: ops ++ rest)
    (hl : ops.length + 1 = framelen h) (hh : ¬ LegalHeader h) (hs : s.stalled = false) :
    step s = .next ((s.withCommands rest).emit [responseHeader (opcodeOf h) (some .illegalCommand)]) := by
  rw [step, hrst, hc, decode_of_not_legalHeader hh rest hl, hs]
  rfl

/-- A step either holds the state, under back-pressure, or takes the frame and answers its opcode; the status
is `IllegalCommand` exactly when the header is not legal. -/
theorem step_eq_self_or_answers (hrst : s.rst = false) (hc : s.cmd = h :: ops ++ rest)
    (hl : ops.length + 1 = framelen h) (hstep : step s = .next t) :
    t = s ∨ ∃ e, (e = some .illegalCommand ↔ ¬ LegalHeader h) ∧
      Answers (opcodeOf h) (s.withCommands rest) e t := by
  obtain ⟨hrst', -⟩ | ⟨-, -, rfl⟩ | ⟨hdr, why, later, -, -, hd, rfl⟩ | ⟨i, later, -, -, hd, hexec⟩ :=
    step_eq_next hstep
  · rw [hrst] at hrst'
    cases hrst'
  · exact .inl rfl
  · rw [hc] at hd
    obtain ⟨hh, rfl, rfl⟩ := header_and_rest_of_decode_eq_illegal hl hd
    exact .inr ⟨_, iff_of_true rfl hh, .raised _⟩
  · rw [hc] at hd
    obtain ⟨hh, hopc, rfl⟩ := opcode_and_rest_of_decode_eq_command hl hd
    obtain ⟨e, ha, he⟩ := exec_answers hexec
    exact .inr ⟨e, iff_of_false he (not_not_intro hh), hopc ▸ ha⟩

end

/-! ## The obligations -/

/-- Settles O10: the headers illegal by their reserved bits are those the decoder rejects
(`illegalHeader_iff`), and a legal header is answered with another status, which the first word tells. -/
theorem illegalHeaderIsAnsweredIllegalCommand : Obligations.IllegalHeaderIsAnsweredIllegalCommand := by
  intro s h ops rest hrst hc hl
  rw [illegalHeader_iff, not_not]
  refine ⟨fun hh hs => step_of_not_legalHeader hrst hc hl hh hs, fun hh t hstep hrsp => ?_⟩
  obtain rfl | ⟨e, he, ha⟩ := step_eq_self_or_answers hrst hc hl hstep
  · simp at hrsp
  · obtain ⟨payload, ht⟩ := ha.exists_rsp_eq
    obtain ⟨hhdr, -⟩ := List.cons.inj (List.append_cancel_left (ht.symm.trans hrsp))
    exact he.1 (eq_illegalCommand_of_responseHeader_eq hhdr) hh

/-- Settles O11: an answer whose header has a status other than 0 was raised, and raising only answers. -/
theorem failingCommandChangesNoState : Obligations.FailingCommandChangesNoState := by
  intro s t h ops rest hdr payload hrst hc hl hstep hrsp hstatus
  obtain rfl | ⟨e, -, ha⟩ := step_eq_self_or_answers hrst hc hl hstep
  · simp at hrsp
  cases ha with
  | responded payload' ht =>
    obtain ⟨rfl, -⟩ := List.cons.inj (List.append_cancel_left (ht.symm.trans hrsp))
    exact absurd (responseHeader_status _ none) hstatus
  | raised e =>
    obtain ⟨rfl, -⟩ := List.cons.inj (List.append_cancel_left hrsp)
    exact ⟨by rw [responseHeader_status]; rfl, rfl⟩

end Sys2Proof.Machine
end

section
/-! The commands one by one (rules R24, R25, R60 to R63, R97 to R105): on which grounds a command is answered with
an error, what a successful one answers and leaves unchanged, and what of the state it does not look at. -/

namespace Sys2Proof.Machine

/-! ## Errors and their grounds (rules R97 to R100, R103) -/

/-- Without a descriptor a command that needs one is answered `UsageError` (rule R99). -/
theorem exec_of_uninitialized {i : Instr} {s : State} (hi : needsDescriptor i = true)
    (hf : s.fsm = .uninitialized) : exec i s = raise i.opcode .usageError s := by
  cases i with
  | init | reflect | tbuild => cases hi
  | update | reset | finalize | selftest | tread => exact if_pos hf

/-- Without a descriptor or in bitwise mode there is no built table to read (rules R76, R99). -/
theorem exec_tread_of_no_table {index : BitVec 8} {s : State} (h : s.fsm = .uninitialized ∨ s.mode = false) :
    exec (.tread index) s = raise 0x08#8 .usageError s := by
  by_cases hf : s.fsm = .uninitialized
  · exact exec_of_uninitialized rfl hf
  · exact (if_neg hf).trans (if_pos (h.resolve_left hf))

/-- An illegal operand is answered with the error of its check, in every state (rules R98, R100). -/
theorem exec_of_operandsIllegal {i : Instr} (hi : operandsLegal i = false) (s : State) :
    exec i s = raise i.opcode (if i.opcode = 0x06#8 then .rangeError else .configError) s := by
  cases i with
  | init | reflect | tbuild => exact if_neg (Bool.eq_false_iff.1 hi)
  | update | reset | finalize | selftest | tread => cases hi

/-- With a descriptor, a built table for `TREAD` and legal operands a command is answered with status 0. -/
theorem Inv.exec_succeeds {i : Instr} {s : State} (hs : Inv s)
    (hf : needsDescriptor i = true → s.fsm ≠ .uninitialized)
    (hm : ∀ index, i = .tread index → s.mode = true) (hi : operandsLegal i = true) :
    ∃ t payload, exec i s = .next t ∧ t.rsp = s.rsp ++ responseHeader i.opcode none :: payload := by
  cases i with
  | init | reflect | tbuild => exact ⟨_, _, if_pos hi, rfl⟩
  | update => exact ⟨_, _, execUpdate_of_foldBytes (hf rfl) (hs.foldBytes_eq (hf rfl) ..), rfl⟩
  | reset => exact ⟨_, _, execReset_of_descriptor (hf rfl), rfl⟩
  | finalize => exact ⟨_, _, execFinalize_of_descriptor (hf rfl), rfl⟩
  | selftest => exact ⟨_, _, execSelftest_of_foldBytes (hf rfl) (hs.foldBytes_eq (hf rfl) ..), rfl⟩
  | tread index =>
    obtain ⟨e, he, -⟩ := hs.read_le_mask (hf rfl) (hm index rfl) index.isLt
    exact ⟨_, _, execTread_of_read (hf rfl) (hm index rfl) he, rfl⟩

/-- Settles O12: one lemma per ground, and `Inv.exec_succeeds` where there is none. -/
theorem errorsAreRaisedExactlyOnTheirGrounds : Obligations.ErrorsAreRaisedExactlyOnTheirGrounds := by
  refine fun i s => ⟨exec_of_uninitialized, fun index hi hm => hi ▸ exec_tread_of_no_table (.inr hm), fun hi => ?_,
    Inv.exec_succeeds⟩
  rw [exec_of_operandsIllegal hi]
  split <;> rfl

/-! ## Response frames (rules R32, R60 to R63) -/

/-- The payload count of rule R61, by status and opcode. -/
theorem payloadLength_responseHeader (opc : BitVec 8) (e : Option CommandError) :
    payloadLength (responseHeader opc e)
      = if statusCode e ≠ 0#4 then 0 else if opc = 0x07#8 then 256 else if opc = 0x01#8 then 0 else 1 := by
  rw [payloadLength, responseHeader_status, responseHeader_opcode, Config.tableSize]

/-- A command that answers adds one header with its opcode and as many payload words as the header says. -/
theorem exec_rsp_eq {i : Instr} {s t : State} (h : exec i s = .next t) :
    ∃ e payload, t.rsp = s.rsp ++ responseHeader i.opcode e :: payload ∧ e ≠ some .illegalCommand ∧
      payload.length = payloadLength (responseHeader i.opcode e) := by
  simp only [payloadLength_responseHeader]
  cases i with
  | init => obtain ⟨-, rfl⟩ | ⟨-, rfl⟩ := execInit_eq_next h <;> exact ⟨_, _, rfl, nofun, rfl⟩
  | update => obtain ⟨-, rfl⟩ | ⟨r, -, -, rfl⟩ := execUpdate_eq_next h <;> exact ⟨_, _, rfl, nofun, rfl⟩
  | reset => obtain ⟨-, rfl⟩ | ⟨-, rfl⟩ := execReset_eq_next h <;> exact ⟨_, _, rfl, nofun, rfl⟩
  | finalize => obtain ⟨-, rfl⟩ | ⟨-, rfl⟩ := execFinalize_eq_next h <;> exact ⟨_, _, rfl, nofun, rfl⟩
  | selftest => obtain ⟨-, rfl⟩ | ⟨r, -, -, rfl⟩ := execSelftest_eq_next h <;> exact ⟨_, _, rfl, nofun, rfl⟩
  | reflect => obtain ⟨-, rfl⟩ | ⟨-, rfl⟩ := execReflect_eq_next h <;> exact ⟨_, _, rfl, nofun, rfl⟩
  | tbuild =>
    obtain ⟨-, rfl⟩ | ⟨-, rfl⟩ := execTbuild_eq_next h
    · exact ⟨_, _, rfl, nofun, rfl⟩
    · exact ⟨_, _, rfl, nofun, buildTable_length ..⟩
  | tread => obtain ⟨-, rfl⟩ | ⟨e, -, -, -, rfl⟩ := execTread_eq_next h <;> exact ⟨_, _, rfl, nofun, rfl⟩

/-- The host reads a whole response frame back and leaves what follows (rule R63). -/
theorem parseResponse_frame {opc : BitVec 8} {e : Option CommandError} {payload : List Word}
    (hlen : payload.length = payloadLength (responseHeader opc e)) (later : List Word) :
    parseResponse (responseHeader opc e :: payload ++ later) = some (⟨opc, statusCode e, payload⟩, later) := by
  rw [List.cons_append, parseResponse, ← hlen, List.take_left' rfl, List.drop_left' rfl, responseHeader_opcode,
    responseHeader_status, if_neg (by simp)]

/-- The error commands raise have the status codes up to 3 (rule R62). -/
theorem statusCode_le_three {e : Option CommandError} (he : e ≠ some .illegalCommand) :
    (statusCode e).toNat ≤ 3 := by
  rcases e with _ | _ | _ | _ | _
  case some.illegalCommand => exact absurd rfl he
  all_goals decide

/-- Settles O13: `exec_rsp_eq` gives the frame, whose payload has the length its header says. -/
theorem oneResponseFramePerCommand : Obligations.OneResponseFramePerCommand := by
  intro i s t h
  obtain ⟨e, payload, hrsp, he, hlen⟩ := exec_rsp_eq h
  have hcount := hlen.trans (payloadLength_responseHeader i.opcode e)
  refine ⟨_, payload, statusCode e, hrsp, rfl, statusCode_le_three he, fun hne => ?_, fun hok => ?_,
    parseResponse_frame hlen⟩
  · rwa [if_pos hne, List.length_eq_zero_iff] at hcount
  · rwa [if_neg (not_not_intro hok)] at hcount

/-! ## Frames (rule R25) -/

/-- The commands that write `REG` (rule R25). -/
def writesReg (i : Instr) : Prop := i = .reset ∨ i = .selftest ∨ ∃ bytes, bytes ≠ [] ∧ i = .update bytes

/-- The next state differs from the state before in `REG`, `FSM` and the response channel at most, and in the
first two only where rule R25 lets the command write them. -/
def KeepsFrame (i : Instr) (s t : State) : Prop :=
  ∃ r f ws, t = ((s.withReg r).withFsm f).emit ws ∧ (r ≠ s.reg → writesReg i) ∧
    (f ≠ s.fsm → i = .finalize ∨ writesReg i)

/-- A command may always answer. -/
theorem keepsFrame_emit (i : Instr) (s : State) (ws : List Word) : KeepsFrame i s (s.emit ws) :=
  ⟨s.reg, s.fsm, ws, rfl, fun h => absurd rfl h, fun h => absurd rfl h⟩

/-- A command that writes `REG` may write `FSM`. -/
theorem keepsFrame_of_writesReg {i : Instr} (hi : writesReg i) (s : State) (r : Word) (f : Fsm) (ws : List Word) :
    KeepsFrame i s (((s.withReg r).withFsm f).emit ws) :=
  ⟨r, f, ws, rfl, fun _ => hi, fun _ => .inr hi⟩

/-- Every command but `INIT` keeps its frame. -/
theorem exec_keepsFrame {i : Instr} {s t : State} (hi : i.opcode ≠ 0x01#8) (h : exec i s = .next t) :
    KeepsFrame i s t := by
  cases i with
  | init => exact absurd rfl hi
  | update bytes =>
    obtain ⟨-, rfl⟩ | ⟨r, -, hr, rfl⟩ := execUpdate_eq_next h
    · exact keepsFrame_emit ..
    · by_cases hb : bytes = []
      · subst hb
        obtain rfl : s.reg.toNat = r := Option.some.inj hr
        rw [BitVec.ofNat_toNat, BitVec.setWidth_eq]
        exact keepsFrame_emit ..
      · exact keepsFrame_of_writesReg (.inr (.inr ⟨bytes, hb, rfl⟩)) ..
  | reset =>
    obtain ⟨-, rfl⟩ | ⟨-, rfl⟩ := execReset_eq_next h
    · exact keepsFrame_emit ..
    · exact keepsFrame_of_writesReg (.inl rfl) ..
  | finalize =>
    obtain ⟨-, rfl⟩ | ⟨-, rfl⟩ := execFinalize_eq_next h
    · exact keepsFrame_emit ..
    · exact ⟨s.reg, _, _, rfl, fun h => absurd rfl h, fun _ => .inl rfl⟩
  | selftest =>
    obtain ⟨-, rfl⟩ | ⟨r, -, -, rfl⟩ := execSelftest_eq_next h
    · exact keepsFrame_emit ..
    · exact keepsFrame_of_writesReg (.inr (.inl rfl)) ..
  | reflect => obtain ⟨-, rfl⟩ | ⟨-, rfl⟩ := execReflect_eq_next h <;> exact keepsFrame_emit ..
  | tbuild => obtain ⟨-, rfl⟩ | ⟨-, rfl⟩ := execTbuild_eq_next h <;> exact keepsFrame_emit ..
  | tread => obtain ⟨-, rfl⟩ | ⟨e, -, -, -, rfl⟩ := execTread_eq_next h <;> exact keepsFrame_emit ..

/-- Settles O25: `KeepsFrame` names the only two elements that change. -/
theorem commandsOtherThanInitKeepTheirFrame : Obligations.CommandsOtherThanInitKeepTheirFrame := by
  intro i s t hi h
  obtain ⟨r, f, ws, rfl, hreg, hfsm⟩ := exec_keepsFrame hi h
  refine ⟨rfl, rfl, rfl, rfl, rfl, rfl, rfl, rfl, fun _ => rfl, rfl, rfl, rfl, hreg, fun hne => ?_⟩
  obtain hi | hi | hi | hi := hfsm hne
  · exact .inr (.inr (.inl hi))
  · exact .inl hi
  · exact .inr (.inl hi)
  · exact .inr (.inr (.inr hi))

/-- No command takes words from the command channel: its frame was taken before (rule R31). -/
theorem exec_cmd {i : Instr} {s t : State} (h : exec i s = .next t) : t.cmd = s.cmd := by
  by_cases hi : i.opcode = 0x01#8
  · cases i with
    | init => obtain ⟨-, rfl⟩ | ⟨-, rfl⟩ := execInit_eq_next h <;> rfl
    | _ => simp [Instr.opcode] at hi
  · obtain ⟨_, _, _, rfl, -⟩ := exec_keepsFrame hi h
    rfl

/-! ## What a command does not look at (rules R24, R105) -/

/-- The state with other words in the response channel and another state of the state machine. -/
def State.withRspFsm (s : State) (rsp : List Word) (f : Fsm) : State := { s with rsp := rsp, fsm := f }

/-- A command does not look at the response channel, and of the state machine only at whether a descriptor is
loaded: with both changed it adds the same words and leaves the same other elements. -/
theorem exec_withRspFsm {i : Instr} {s t : State} (h : exec i s = .next t) :
    ∃ ws, t.rsp = s.rsp ++ ws ∧ ∀ (rsp : List Word) (f : Fsm),
      (f = .uninitialized ↔ s.fsm = .uninitialized) →
      ∃ f', exec i (s.withRspFsm rsp f) = .next (t.withRspFsm (rsp ++ ws) f') ∧ (f = s.fsm → f' = t.fsm) := by
  cases i with
  | init =>
    obtain ⟨hw, rfl⟩ | ⟨hw, rfl⟩ := execInit_eq_next h
    · exact ⟨_, rfl, fun rsp f _ => ⟨f, if_neg (Bool.eq_false_iff.1 hw), id⟩⟩
    · exact ⟨_, rfl, fun rsp f _ => ⟨_, if_pos hw, fun _ => rfl⟩⟩
  | update bytes =>
    obtain ⟨hu, rfl⟩ | ⟨r, hu, hr, rfl⟩ := execUpdate_eq_next h
    · exact ⟨_, rfl, fun rsp f hf => ⟨f, exec_of_uninitialized rfl (hf.2 hu), id⟩⟩
    · refine ⟨_, rfl, fun rsp f hf => ⟨_, execUpdate_of_foldBytes (mt hf.1 hu)
        ((foldBytes_congr (s := s) (t := s.withRspFsm rsp f) rfl rfl rfl rfl rfl ..).trans hr), ?_⟩⟩
      rintro rfl
      rfl
  | reset =>
    obtain ⟨hu, rfl⟩ | ⟨hu, rfl⟩ := execReset_eq_next h
    · exact ⟨_, rfl, fun rsp f hf => ⟨f, exec_of_uninitialized rfl (hf.2 hu), id⟩⟩
    · exact ⟨_, rfl, fun rsp f hf => ⟨_, execReset_of_descriptor (mt hf.1 hu), fun _ => rfl⟩⟩
  | finalize =>
    obtain ⟨hu, rfl⟩ | ⟨hu, rfl⟩ := execFinalize_eq_next h
    · exact ⟨_, rfl, fun rsp f hf => ⟨f, exec_of_uninitialized rfl (hf.2 hu), id⟩⟩
    · exact ⟨_, rfl, fun rsp f hf => ⟨_, execFinalize_of_descriptor (mt hf.1 hu), fun _ => rfl⟩⟩
  | selftest =>
    obtain ⟨hu, rfl⟩ | ⟨r, hu, hr, rfl⟩ := execSelftest_eq_next h
    · exact ⟨_, rfl, fun rsp f hf => ⟨f, exec_of_uninitialized rfl (hf.2 hu), id⟩⟩
    · exact ⟨_, rfl, fun rsp f hf => ⟨_, execSelftest_of_foldBytes (mt hf.1 hu)
        ((foldBytes_congr (s := s) rfl rfl rfl rfl rfl ..).trans hr), fun _ => rfl⟩⟩
  | reflect =>
    obtain ⟨hn, rfl⟩ | ⟨hn, rfl⟩ := execReflect_eq_next h
    · exact ⟨_, rfl, fun rsp f _ => ⟨f, if_neg (Bool.eq_false_iff.1 hn), id⟩⟩
    · exact ⟨_, rfl, fun rsp f _ => ⟨f, if_pos hn, id⟩⟩
  | tbuild =>
    obtain ⟨hw, rfl⟩ | ⟨hw, rfl⟩ := execTbuild_eq_next h
    · exact ⟨_, rfl, fun rsp f _ => ⟨f, if_neg (Bool.eq_false_iff.1 hw), id⟩⟩
    · exact ⟨_, rfl, fun rsp f _ => ⟨f, if_pos hw, id⟩⟩
  | tread =>
    obtain ⟨hno, rfl⟩ | ⟨e, hu, hm, he, rfl⟩ := execTread_eq_next h
    · exact ⟨_, rfl, fun rsp f hf => ⟨f, exec_tread_of_no_table (hno.imp_left hf.2), id⟩⟩
    · exact ⟨_, rfl, fun rsp f hf => ⟨f, execTread_of_read (mt hf.1 hu) hm he, id⟩⟩

/-- The response channel alone may differ: a command only adds to it. -/
theorem exec_with_rsp {i : Instr} {s t : State} (h : exec i s = .next t) :
    ∃ ws, t.rsp = s.rsp ++ ws ∧
      ∀ rsp, exec i { s with rsp := rsp } = .next { t with rsp := rsp ++ ws } := by
  obtain ⟨ws, hws, hexec⟩ := exec_withRspFsm h
  refine ⟨ws, hws, fun rsp => ?_⟩
  obtain ⟨f', hf', hkeep⟩ := hexec rsp s.fsm Iff.rfl
  rwa [hkeep rfl] at hf'

/-- An answer of one word with a status other than 0 is an error, raised with no state changed (rule R104). -/
theorem exec_eq_emit_of_status {i : Instr} {s t : State} {hdr : Word} (h : exec i s = .next t)
    (hrsp : t.rsp = s.rsp ++ [hdr]) (hstatus : hdr.extractLsb' 0 4 ≠ 0#4) : t = s.emit [hdr] := by
  obtain ⟨e, ha, -⟩ := exec_answers h
  cases ha with
  | responded payload ht =>
    obtain ⟨rfl, -⟩ := List.cons.inj (List.append_cancel_left (ht.symm.trans hrsp))
    exact absurd (responseHeader_status _ none) hstatus
  | raised e =>
    obtain ⟨rfl, -⟩ := List.cons.inj (List.append_cancel_left hrsp)
    rfl

/-- Settles O14: the failed command left only a word in the response channel, and no command looks there. -/
theorem errorsAreNotSticky : Obligations.ErrorsAreNotSticky := by
  intro i j s t hdr h hrsp hstatus
  obtain rfl := exec_eq_emit_of_status h hrsp hstatus
  refine ⟨fun u hu => ?_, fun f hfault => ?_⟩
  · obtain ⟨ws, hws, hexec⟩ := exec_with_rsp hu
    exact ⟨ws, hws, hexec _⟩
  · cases hj : exec j (s.emit [hdr]) with
    | next u =>
      obtain ⟨ws, -, hexec⟩ := exec_with_rsp hj
      cases hfault.symm.trans (hexec s.rsp)
    | fault f' => cases f; cases f'; rfl
    | refused r => exact (exec_ne_refused j _ r hj).elim

/-! ## The state machine (rule R24) -/

/-- The transition table: the state of the state machine after a command, from the one before. -/
def nextFsm (i : Instr) (f : Fsm) : Fsm :=
  match i with
  | .init width _ _ _ _ _ _ _ => if legalWidth width then .ready else f
  | .update bytes => if f = .uninitialized ∨ bytes = [] then f else .accumulating
  | .reset => if f = .uninitialized then .uninitialized else .ready
  | .finalize => if f = .uninitialized then .uninitialized else .finalized
  | .selftest => if f = .uninitialized then .uninitialized else .finalized
  | .reflect _ _ => f
  | .tbuild _ _ => f
  | .tread _ => f

theorem exec_fsm {i : Instr} {s t : State} (h : exec i s = .next t) : t.fsm = nextFsm i s.fsm := by
  cases i with
  | init => obtain ⟨hw, rfl⟩ | ⟨hw, rfl⟩ := execInit_eq_next h <;> simp [nextFsm, hw, State.initialized]
  | update => obtain ⟨hf, rfl⟩ | ⟨r, hf, -, rfl⟩ := execUpdate_eq_next h <;> simp [nextFsm, hf]
  | reset => obtain ⟨hf, rfl⟩ | ⟨hf, rfl⟩ := execReset_eq_next h <;> simp [nextFsm, hf]
  | finalize => obtain ⟨hf, rfl⟩ | ⟨hf, rfl⟩ := execFinalize_eq_next h <;> simp [nextFsm, hf]
  | selftest => obtain ⟨hf, rfl⟩ | ⟨r, hf, -, rfl⟩ := execSelftest_eq_next h <;> simp [nextFsm, hf]
  | reflect => obtain ⟨-, rfl⟩ | ⟨-, rfl⟩ := execReflect_eq_next h <;> rfl
  | tbuild => obtain ⟨-, rfl⟩ | ⟨-, rfl⟩ := execTbuild_eq_next h <;> rfl
  | tread => obtain ⟨-, rfl⟩ | ⟨e, -, -, -, rfl⟩ := execTread_eq_next h <;> rfl

/-- No transition leads back to `Uninitialized`. -/
theorem nextFsm_ne_uninitialized (i : Instr) {f : Fsm} (hf : f ≠ .uninitialized) :
    nextFsm i f ≠ .uninitialized := by
  cases i with
  | init =>
    rw [nextFsm]
    split
    · nofun
    · exact hf
  | update =>
    rw [nextFsm]
    split
    · exact hf
    · nofun
  | reset | finalize | selftest => rw [nextFsm, if_neg hf]; nofun
  | reflect | tbuild | tread => exact hf

/-- No command takes the descriptor away. -/
theorem exec_fsm_ne_uninitialized {i : Instr} {s t : State} (hf : s.fsm ≠ .uninitialized)
    (h : exec i s = .next t) : t.fsm ≠ .uninitialized :=
  exec_fsm h ▸ nextFsm_ne_uninitialized i hf

/-- Without a hard reset no step takes the descriptor away. -/
theorem step_fsm_ne_uninitialized {s t : State} (hrst : s.rst = false) (hf : s.fsm ≠ .uninitialized)
    (h : step s = .next t) : t.fsm ≠ .uninitialized := by
  obtain ⟨hrst', -⟩ | ⟨-, -, rfl⟩ | ⟨_, _, _, -, -, -, rfl⟩ | ⟨i, rest, -, -, -, hexec⟩ := step_eq_next h
  · exact absurd (hrst.symm.trans hrst') (by decide)
  · exact hf
  · exact hf
  · exact exec_fsm_ne_uninitialized (s := s.withCommands rest) hf hexec

/-- Settles O26: `exec_fsm` is the transition table, and `exec_withRspFsm` says that the initialized states of
the state machine are not told apart. -/
theorem stateMachineFollowsTheTransitionTable : Obligations.StateMachineFollowsTheTransitionTable := by
  refine ⟨fun i s t h => ?_, fun i s => exec_of_uninitialized, fun index s hm => exec_tread_of_no_table (.inr hm),
    fun s t => step_fsm_ne_uninitialized, fun i s t f hf hf' h => ?_⟩
  · rw [exec_fsm h]
    cases i <;> rfl
  · obtain ⟨ws, hws, hexec⟩ := exec_withRspFsm h
    obtain ⟨f', hnext, -⟩ := hexec s.rsp f (iff_of_false hf' hf)
    rw [← hws] at hnext
    exact ⟨_, hnext, rfl⟩

end Sys2Proof.Machine
end

section
/-! The step (rules R31, R39, R112, R113, R124, R125): the invariant along it, the frames it takes, and what it
does with a truncated frame and with a host that takes no responses. -/

namespace Sys2Proof.Machine

/-! ## The invariant (rules R14, R21, R23) -/

/-- Settles O28: a step is a hard reset, a wait, the answer to an illegal header or a command, and each keeps
the invariant (`step_keeps_inv`). -/
theorem everyStepKeepsTheInvariant : Obligations.EveryStepKeepsTheInvariant :=
  fun _ _ => step_keeps_inv

/-- Settles O27: after a hard reset only the canonical memory has to be shown (`inv_reset`). -/
theorem invariantHoldsAtReset : Obligations.InvariantHoldsAtReset := inv_reset

/-! ## Safety (rules R23, R102) -/

/-- Where the invariant holds no command faults: every table entry it can read is there. -/
theorem Inv.exec_ne_fault {s : State} (hs : Inv s) (i : Instr) (f : Fault) : exec i s ≠ .fault f := by
  intro h
  obtain ⟨-, hf, ⟨index, -, hm, hread⟩ | ⟨bytes, -, hfold⟩ | ⟨-, hfold⟩⟩ := exec_eq_fault h
  · obtain ⟨e, he, -⟩ := hs.read_le_mask hf hm index.isLt
    cases hread.symm.trans he
  · cases hfold.symm.trans (hs.foldBytes_eq hf ..)
  · cases hfold.symm.trans (hs.foldBytes_eq hf ..)

/-- Where the invariant holds every command answers. -/
theorem Inv.exists_exec_eq_next {s : State} (hs : Inv s) (i : Instr) : ∃ t, exec i s = .next t := by
  cases h : exec i s with
  | next t => exact ⟨t, rfl⟩
  | fault f => exact (hs.exec_ne_fault i f h).elim
  | refused r => exact (exec_ne_refused i s r h).elim

/-- A step faults only in the command it runs. -/
theorem step_eq_fault {s : State} {f : Fault} (h : step s = .fault f) :
    ∃ i rest, exec i (s.withCommands rest) = .fault f := by
  unfold step at h
  split at h
  · cases h
  · split at h
    · cases h
    · cases h
    · split at h <;> cases h
    · split at h
      · cases h
      · exact ⟨_, _, h⟩

theorem Inv.safe {s : State} (hs : Inv s) : Safe s := by
  intro f h
  obtain ⟨i, rest, hexec⟩ := step_eq_fault h
  exact (hs.withCommands rest).exec_ne_fault i f hexec

/-- Settles O30: the invariant rules the fault out, and every reachable state meets it. -/
theorem reachableStatesAreSafe : Obligations.ReachableStatesAreSafe :=
  ⟨fun _ hs => hs.safe, fun _ hreach => ⟨hreach.inv, hreach.inv.safe⟩⟩

/-! ## The arms of the step (rules R31, R112, R113, R124) -/

theorem step_command {s : State} {i : Instr} {rest : List Word} (hrst : s.rst = false)
    (hd : decode s.cmd = .command i rest) :
    step s = if s.stalled then .next s else exec i (s.withCommands rest) := by
  rw [step, hrst, hd]
  rfl

theorem step_of_rst {s : State} (hrst : s.rst = true) : step s = .next (hardReset s) := by
  rw [step, if_pos hrst]

/-- Settles O7: the command's arm and the idle arm of the step, with the condition of a stall written out. -/
theorem stepRunsTheDecodedCommand : Obligations.StepRunsTheDecodedCommand := by
  refine ⟨fun s i rest hrst hd => ?_, fun s hrst hc => ?_⟩
  · simp only [step_command hrst hd, stalled_iff]
    rfl
  · rw [step, hrst, hc]
    rfl

/-- Settles O8: the fields of the state a hard reset leaves. -/
theorem hardResetUninitializesAndEmptiesChannels : Obligations.HardResetUninitializesAndEmptiesChannels :=
  fun s hrst => ⟨hardReset s, step_of_rst hrst, rfl, rfl, rfl, hrst, rfl⟩

/-! ## Truncated frames (rule R125) -/

/-- The decoder waits exactly for the words that are missing. -/
theorem decode_cons_eq_incomplete_iff (h : Word) (ws : List Word) :
    decode (h :: ws) = .incomplete ↔ ws.length + 1 < framelen h := by
  refine ⟨fun hd => ?_, decode_incomplete h ws⟩
  rw [decode] at hd
  split at hd
  · omega
  · split at hd <;> cases hd

/-- The step is refused exactly where the decoder waits and no reset is driven. -/
theorem step_eq_truncatedFrame_iff (s : State) :
    step s = .refused .truncatedFrame ↔ s.rst = false ∧ decode s.cmd = .incomplete := by
  constructor
  · intro h
    unfold step at h
    split at h
    · cases h
    · refine ⟨Bool.eq_false_iff.2 ‹_›, ?_⟩
      split at h
      · cases h
      · assumption
      · split at h <;> cases h
      · split at h
        · cases h
        · exact (exec_ne_refused _ _ _ h).elim
  · rintro ⟨hrst, hd⟩
    rw [step, hrst, hd]
    rfl

/-- Settles O9: whatever words move, they stand behind the header, and the step is refused exactly as long as
they are fewer than its frame (`decode_cons_eq_incomplete_iff`). -/
theorem truncatedFrameIsStuckUntilCompletedOrReset :
    Obligations.TruncatedFrameIsStuckUntilCompletedOrReset := by
  intro s h ws hrst hc hl
  have stuck_iff : ∀ more, step { s with cmd := s.cmd ++ more } = .refused .truncatedFrame ↔
      ws.length + 1 + more.length < framelen h := by
    intro more
    rw [step_eq_truncatedFrame_iff, hc, List.cons_append, decode_cons_eq_incomplete_iff, List.length_append,
      Nat.add_right_comm]
    exact and_iff_right hrst
  refine ⟨(step_eq_truncatedFrame_iff s).2 ⟨hrst, by rw [hc, decode_incomplete h ws hl]⟩,
    fun more t hsend => ?_, fun hs more => sendCommand_of_not_stalled hrst hs more, _, step_of_rst rfl, rfl, rfl⟩
  obtain rfl := sendCommand_eq_some hsend
  exact ⟨(stuck_iff more).2, fun hge hstuck => absurd ((stuck_iff more).1 hstuck) (Nat.not_lt.2 hge)⟩

/-! ## Complete frames (rules R32, R39) -/

/-- A command adds at least one response word. -/
theorem exec_rsp_ne {i : Instr} {s t : State} (h : exec i s = .next t) : ∃ ws, t.rsp = s.rsp ++ ws ∧ ws ≠ [] := by
  obtain ⟨e, payload, hrsp, -⟩ := exec_rsp_eq h
  exact ⟨_, hrsp, nofun⟩

/-- A block that meets the invariant and is not stalled answers a complete frame and takes exactly that frame. -/
theorem Inv.step_complete_frame {s : State} (hs : Inv s) (hrst : s.rst = false) (hst : s.stalled = false)
    {h : Word} {ops rest : List Word} (hc : s.cmd = h :: ops ++ rest) (hl : ops.length + 1 = framelen h) :
    ∃ t ws, step s = .next t ∧ t.cmd = rest ∧ t.rsp = s.rsp ++ ws ∧ ws ≠ [] := by
  rw [step_complete hrst hst hc hl]
  cases decodeFrame h ops with
  | none => exact ⟨_, _, rfl, rfl, rfl, nofun⟩
  | some i =>
    obtain ⟨t, ht⟩ := (hs.withCommands rest).exists_exec_eq_next i
    obtain ⟨ws, hrsp, hws⟩ := exec_rsp_ne ht
    exact ⟨t, ws, ht, exec_cmd ht, hrsp, hws⟩

/-- Settles O31: a reachable state meets the invariant, and room or readiness rules a stall out. -/
theorem everyCompleteFrameIsAnswered : Obligations.EveryCompleteFrameIsAnswered :=
  fun s _ _ _ hreach hrst hroom hc hl =>
    hreach.inv.step_complete_frame hrst ((stalled_eq_false_iff s).2 hroom) hc hl

/-! ## Back-pressure (rule R124) -/

/-- A stalled block with as many words ahead as it buffers takes no more. -/
theorem sendCommand_cons_of_full {s : State} (hs : s.stalled = true) (hfull : Config.commandDepth ≤ s.cmd.length)
    (w : Word) (ws : List Word) : sendCommand (w :: ws) s = none := by
  rw [sendCommand, if_neg]
  simp [commandReady, hs, Nat.not_lt.2 hfull]

/-- The words a decoder consumes are the front of the channel. -/
theorem exists_taken_of_decode {cmd rest : List Word}
    (hd : (∃ h why, decode cmd = .illegal h why rest) ∨ ∃ i, decode cmd = .command i rest) :
    ∃ taken, cmd = taken ++ rest := by
  cases cmd with
  | nil => obtain ⟨_, _, hd⟩ | ⟨_, hd⟩ := hd <;> cases hd
  | cons h ws =>
    by_cases hl : ws.length + 1 < framelen h
    · rw [decode_incomplete h ws hl] at hd
      obtain ⟨_, _, hd⟩ | ⟨_, hd⟩ := hd <;> cases hd
    · have hpos := framelen_pos h
      have hops : (ws.take (framelen h - 1)).length + 1 = framelen h := by
        rw [List.length_take]
        omega
      rw [← List.take_append_drop (framelen h - 1) ws, ← List.cons_append] at hd ⊢
      obtain ⟨hdr, why, hd⟩ | ⟨i, hd⟩ := hd
      · obtain ⟨-, -, rfl⟩ := header_and_rest_of_decode_eq_illegal hops hd
        exact ⟨_, rfl⟩
      · obtain ⟨-, -, rfl⟩ := opcode_and_rest_of_decode_eq_command hops hd
        exact ⟨_, rfl⟩

/-- A step without a reset holds both channels, or takes the front of the one and adds to the other, and the
latter only while the block is not stalled. -/
theorem step_channels {s t : State} (hrst : s.rst = false) (h : step s = .next t) :
    (t.cmd = s.cmd ∧ t.rsp = s.rsp) ∨
    ∃ taken added, s.cmd = taken ++ t.cmd ∧ t.rsp = s.rsp ++ added ∧ added ≠ [] ∧ s.stalled = false := by
  obtain ⟨hrst', -⟩ | ⟨-, -, rfl⟩ | ⟨hdr, why, rest, -, hs, hd, rfl⟩ | ⟨i, rest, -, hs, hd, hexec⟩ :=
    step_eq_next h
  · exact absurd (hrst.symm.trans hrst') (by decide)
  · exact .inl ⟨rfl, rfl⟩
  · obtain ⟨taken, hc⟩ := exists_taken_of_decode (.inl ⟨hdr, why, hd⟩)
    exact .inr ⟨taken, _, hc, rfl, nofun, hs⟩
  · obtain ⟨taken, hc⟩ := exists_taken_of_decode (.inr ⟨i, hd⟩)
    obtain ⟨added, hrsp, hne⟩ := exec_rsp_ne hexec
    exact .inr ⟨taken, added, by rwa [exec_cmd hexec], hrsp, hne, hs⟩

/-- The oldest response word moves first, and only while the host is ready (rule R30). -/
theorem takeResponse_of_cons {s : State} (hrst : s.rst = false) {w : Word} {ws : List Word}
    (hc : s.rsp = w :: ws) :
    takeResponse s = if s.rspReady then some (w, { s with rsp := ws }) else none := by
  rw [takeResponse, hrst, hc]
  cases s.rspReady <;> rfl

/-- Settles O40: the clauses of a stalled block, then `step_channels`, then those of a block that is not
stalled. -/
theorem backPressureStallsTheBlockAndDropsNothing : Obligations.BackPressureStallsTheBlockAndDropsNothing := by
  intro s hrst
  refine ⟨fun hready hlen => ?_, fun t hstep => ?_,
    fun hroom ws => sendCommand_of_not_stalled hrst ((stalled_eq_false_iff s).2 hroom) ws,
    fun w ws hc => takeResponse_of_cons hrst hc⟩
  · have hs : s.stalled = true := (stalled_iff s).2 ⟨hready, hlen⟩
    exact ⟨step_stalled hrst hs, sendCommand_cons_of_full hs,
      fun i rest hd => step_command (s := driveReady true s) hrst hd⟩
  · obtain ⟨hcmd, hrsp⟩ | ⟨taken, added, hcmd, hrsp, hadded, hs⟩ := step_channels hrst hstep
    · exact ⟨[], [], hcmd.symm, by rw [hrsp, List.append_nil], fun h => absurd rfl h, fun _ h => absurd rfl h⟩
    · refine ⟨taken, added, hcmd, hrsp, fun _ => hadded, fun hready _ => ?_⟩
      exact ((stalled_eq_false_iff s).1 hs).resolve_left (by simp [hready])

end Sys2Proof.Machine
end

section
/-! Headers by their opcode (rules R47 to R55): the row of the opcode map a header selects, and the frame length. -/

namespace Sys2Proof

/-! ## The rows of the opcode map (rule R55) -/

/-- The mask of every row covers the whole opcode, so a header has the opcode of the row it selects. -/
theorem opcodeOf_eq_of_selects {r : OpcodeRow} {h : Word} (hr : r ∈ opcodeMap) (hs : r.selects h = true) :
    opcodeOf h = opcodeOf r.matchBits := by
  have hmask : ∀ r ∈ opcodeMap, opcodeOf r.maskBits = BitVec.allOnes 8 := by decide
  rw [OpcodeRow.selects, beq_iff_eq] at hs
  rw [← hs, opcodeOf, opcodeOf, BitVec.extractLsb'_and, ← opcodeOf, ← opcodeOf, hmask r hr, BitVec.and_allOnes]

/-- No two rows have the same opcode. -/
theorem opcodeMap_pairwise : opcodeMap.Pairwise fun a b => opcodeOf a.matchBits ≠ opcodeOf b.matchBits := by
  decide

/-- A header selects at most one row. -/
theorem length_selected_le_one (h : Word) : (opcodeMap.filter fun r => r.selects h).length ≤ 1 := by
  have hdistinct := opcodeMap_pairwise.filter fun r => r.selects h
  have hopc : ∀ r ∈ opcodeMap.filter (fun r => r.selects h), opcodeOf h = opcodeOf r.matchBits := fun r hr =>
    opcodeOf_eq_of_selects (List.mem_filter.1 hr).1 (List.mem_filter.1 hr).2
  generalize opcodeMap.filter (fun r => r.selects h) = rows at hdistinct hopc
  match rows with
  | [] => exact Nat.zero_le 1
  | [_] => exact Nat.le_refl 1
  | a :: b :: _ =>
    obtain ⟨ha, hb, -⟩ : _ ∧ _ ∧ _ := by simpa using hopc
    exact absurd (ha.symm.trans hb) ((List.pairwise_cons.1 hdistinct).1 b (List.mem_cons_self ..))

/-- The row with the opcode of a command carries its mnemonic. -/
theorem mnemonic_eq_of_opcode_eq {r : OpcodeRow} (hr : r ∈ opcodeMap) {i : Instr}
    (ho : opcodeOf r.matchBits = i.opcode) : r.mnemonic = i.mnemonic := by
  have hrows : ∀ opc mnemonic, (∀ r ∈ opcodeMap, opcodeOf r.matchBits = opc → r.mnemonic = mnemonic) →
      opcodeOf r.matchBits = opc → r.mnemonic = mnemonic := fun _ _ h => h r hr
  cases i with
  | init => exact hrows 0x01#8 "INIT" (by decide) ho
  | update => exact hrows 0x02#8 "UPDATE" (by decide) ho
  | reset => exact hrows 0x03#8 "RESET" (by decide) ho
  | finalize => exact hrows 0x04#8 "FINALIZE" (by decide) ho
  | selftest => exact hrows 0x05#8 "SELFTEST" (by decide) ho
  | reflect => exact hrows 0x06#8 "REFLECT" (by decide) ho
  | tbuild => exact hrows 0x07#8 "TBUILD" (by decide) ho
  | tread => exact hrows 0x08#8 "TREAD" (by decide) ho

/-- Settles O4: the rows are told apart by their opcodes, and a frame that decodes has a legal header, which
selects the row of its opcode. -/
theorem opcodeMapIsUnambiguous : Obligations.OpcodeMapIsUnambiguous := by
  refine ⟨length_selected_le_one, fun h ops rest i hl hd => ?_⟩
  obtain ⟨hh, hopc, -⟩ := opcode_and_rest_of_decode_eq_command hl hd
  obtain ⟨r, hr, hs⟩ := exists_row_selects_iff.2 hh
  have hmem : r ∈ opcodeMap.filter fun r => r.selects h := List.mem_filter.2 ⟨hr, hs⟩
  obtain ⟨r', hrows⟩ := List.length_eq_one_iff.1
    (Nat.le_antisymm (length_selected_le_one h) (List.length_pos_of_mem hmem))
  rw [hrows, List.mem_singleton] at hmem
  subst hmem
  rw [hrows]
  exact ⟨congrArg (fun m => [m]) (mnemonic_eq_of_opcode_eq hr
    ((opcodeOf_eq_of_selects hr hs).symm.trans hopc.symm)), hopc.symm⟩

/-! ## Frame lengths (rule R54) -/

/-- `LEN` is the low 16 bits of the header. -/
theorem len_toNat (h : Word) : (h.extractLsb' 0 16).toNat = h.toNat % 65536 := by
  rw [BitVec.extractLsb'_toNat, Nat.shiftRight_zero]

/-- Settles O5: `framelen` reads the opcode and `LEN`, one branch per clause. -/
theorem frameLengthFollowsOpcodeAndLen : Obligations.FrameLengthFollowsOpcodeAndLen := by
  refine ⟨fun h => ⟨fun ho => ?_, fun ho => ?_, fun ho => ?_, fun ho => ?_, fun h1 h2 h6 h7 => ?_⟩,
    fun h h' ho hlen => ?_⟩
  · rw [framelen, ho]; rfl
  · rw [framelen, ho, len_toNat, Nat.shiftRight_eq_div_pow]; rfl
  · rw [framelen, ho]; rfl
  · rw [framelen, ho]; rfl
  · rw [framelen, if_neg h1, if_neg h2, if_neg h6, if_neg h7]
  · rw [framelen, framelen, ho, len_toNat, len_toNat, hlen]

/-! ## Frames written out (rules R48 to R53) -/

/-- Settles O1: the decoder computes on eight closed frames. -/
theorem decoderReadsWrittenOutFrames : Obligations.DecoderReadsWrittenOutFrames := by
  unfold Obligations.DecoderReadsWrittenOutFrames
  decide

end Sys2Proof
end

section
/-! The values the commands answer and store (rules R67 to R91): the entries of the table, the byte at the top of
the register, the bits of the reflected and the finalized value, and from them what `INIT`, `UPDATE`, `RESET`,
`FINALIZE`, `REFLECT`, `TBUILD` and `TREAD` do. -/

namespace Sys2Proof.Machine

/-! ## The entries of the table (rules R72 to R74, R80) -/

/-- An odd index adds the polynomial to the entry before it. -/
theorem tableEntry_two_mul_add_one (poly : Nat) {w : Nat} (hw : 8 ≤ w) (b : Nat) :
    tableEntry poly w (2 * b + 1) = tableEntry poly w (2 * b) ^^^ poly % 2 ^ w := by
  rw [← Nat.xor_one_of_even (even_two_mul b), tableEntry_xor, tableEntry_one poly hw, and_mask]

/-- With the top bit of a masked register clear an iteration doubles it. -/
theorem bitStep_of_top_clear {poly w r : Nat} (hw : 0 < w) (hr : r < 2 ^ w) (htop : r.testBit (w - 1) = false) :
    bitStep poly w r = 2 * r := by
  have hlt : r < 2 ^ (w - 1) := Nat.lt_pow_two_of_testBit _ fun i hi => by
    obtain rfl | hi := hi.eq_or_lt
    · exact htop
    · exact Nat.testBit_lt_two_pow (hr.trans_le (Nat.pow_le_pow_right (by decide) (by omega)))
  have hdouble : r <<< 1 = 2 * r := by rw [Nat.shiftLeft_eq, pow_one, Nat.mul_comm]
  have hpow := Nat.two_pow_pred_mul_two hw
  rw [bitStep_of_lt (by omega), hdouble]

/-- Settles O41: the entries of the table are the `T` of the statement; doubling the index is one more iteration
(`tableEntry_two_mul`), and one byte is the shifted register with the entry of its top byte. -/
theorem bitwiseStepFollowsFromShiftAndXor : Obligations.BitwiseStepFollowsFromShiftAndXor := by
  intro poly w hlegal
  have hw : 8 ≤ w := by omega
  refine ⟨tableEntry poly w, tableEntry_zero poly w, (tableEntry_one poly hw).trans (and_mask ..), fun b hb => ?_,
    fun b _ => tableEntry_two_mul_add_one poly hw b, fun r hr => ?_⟩
  · rw [tableEntry_two_mul poly hw hb]
    split_ifs with htop
    · rw [bitStep_eq, if_pos htop, Nat.and_assoc, Nat.and_self, and_mask, and_mask, Nat.shiftLeft_eq, pow_one,
        Nat.mul_comm]
    · exact bitStep_of_top_clear (by omega) ((le_mask_iff _ _).1 (tableEntry_le ..)) (Bool.eq_false_iff.2 htop)
  · rw [← and_mask poly, advanceBitwise_eq_shift_xor_tableEntry poly hw ((le_mask_iff _ _).2 hr), and_mask,
      Nat.shiftLeft_eq, Nat.shiftRight_eq_div_pow]

/-- An entry is the eight iterations on its index at the top byte (rule R73). -/
theorem buildTable_getElem?_eq {width : BitVec 8} (hw : legalWidth width = true) (poly : Nat) {b : Nat}
    (hb : b < 256) : ∃ e : Word, (buildTable poly width.toNat)[b]? = some e ∧
      e.toNat = bitstep8 (b * 2 ^ (width.toNat - 8)) (poly % 2 ^ width.toNat) width.toNat := by
  obtain ⟨hlo, hhi⟩ := legalWidth_bounds hw
  refine ⟨_, buildTable_getElem? poly _ b hb, ?_⟩
  rw [toNat_ofNat_of_le_mask hhi (tableEntry_le ..), tableEntry_eq_advanceBitwise poly hlo hb, Nat.shiftLeft_eq,
    and_mask, advanceBitwise]

/-- Polynomials equal below the width have the same table. -/
theorem buildTable_congr {width : BitVec 8} (hw : legalWidth width = true) {poly poly' : Word}
    (h : poly'.toNat % 2 ^ width.toNat = poly.toNat % 2 ^ width.toNat) :
    buildTable poly'.toNat width.toNat = buildTable poly.toNat width.toNat := by
  rw [← buildTable_maskOperand hw poly', ← buildTable_maskOperand hw poly, maskOperand_toNat hw,
    maskOperand_toNat hw, h]

/-- Settles O23: the payload is `buildTable`, whose entries and dependence on the polynomial the two lemmas
before say. -/
theorem tbuildAnswersTheTable : Obligations.TbuildAnswersTheTable := by
  refine fun width poly s => ⟨fun hw => ⟨⟨_, if_pos hw, buildTable_length .., fun b hb =>
    buildTable_getElem?_eq hw _ hb⟩, fun poly' hp => ?_⟩, fun hw => if_neg (Bool.eq_false_iff.1 hw)⟩
  change execTbuild width poly' s = execTbuild width poly s
  rw [execTbuild, execTbuild, buildTable_congr hw hp]

/-- Settles O24: the invariant says that the entry read is the one built for the stored polynomial, which is
masked. -/
theorem treadAnswersTheBuiltEntry : Obligations.TreadAnswersTheBuiltEntry := by
  refine fun index s => ⟨fun hs hf hm => ?_, exec_tread_of_no_table⟩
  obtain ⟨-, hpoly, -, -⟩ := hs.masked hf
  obtain ⟨e, he, hval⟩ := buildTable_getElem?_eq (hs.width hf) s.poly.toNat index.isLt
  rw [Nat.mod_eq_of_lt ((le_mask_iff _ _).1 hpoly)] at hval
  exact ⟨e, execTread_of_read hf hm ((hs.table hf hm _ index.isLt).trans he), hval⟩

/-! ## `INIT` (rule R84) -/

theorem exec_init_of_legalWidth {width : BitVec 8} (hw : legalWidth width = true) (refin refout tmode : Bool)
    (poly initv xorout check : Word) (s : State) :
    exec (.init width refin refout tmode poly initv xorout check) s
      = .next ((s.initialized width refin refout tmode poly initv xorout check).emit [0x01000000#32]) :=
  if_pos hw

/-- What the table reads after a table-mode `INIT`. -/
theorem read_store_buildTable (m : Memory) (poly w b : Nat) :
    (m.store 0 (buildTable poly w)).read b = if b < 256 then (buildTable poly w)[b]? else m.read b := by
  rw [Memory.read_store, buildTable_length, Config.tableSize, Nat.zero_add, Nat.sub_zero]
  simp

/-- Settles O15: the fields of `State.initialized`, with the masked operands and the entries as numbers. -/
theorem initLoadsTheDescriptor : Obligations.InitLoadsTheDescriptor := by
  refine fun width refin refout tmode poly initv xorout check s => ⟨fun hlegal => ?_, fun h8 h16 h24 h32 => ?_⟩
  · have hw : legalWidth width = true := by simpa [legalWidth, or_assoc] using hlegal
    refine ⟨_, exec_init_of_legalWidth hw .., rfl, rfl, rfl, rfl, rfl, rfl, maskOperand_toNat hw _,
      maskOperand_toNat hw _, maskOperand_toNat hw _, rfl, rfl, rfl, rfl, rfl, ?_, ?_⟩
    · rintro rfl
      refine ⟨fun b hb => ?_, fun b hb => ?_⟩
      · obtain ⟨e, he, hval⟩ := buildTable_getElem?_eq hw poly.toNat hb
        exact ⟨e, ((read_store_buildTable ..).trans (if_pos hb)).trans he, hval⟩
      · exact (read_store_buildTable ..).trans (if_neg (Nat.not_lt.2 hb))
    · rintro rfl b
      rfl
  · have hw : legalWidth width = false := by simp [legalWidth, h8, h16, h24, h32]
    exact if_neg (Bool.eq_false_iff.1 hw)

/-- Settles O16: the descriptor overwrites every element but the table, and a store of the whole table leaves
nothing of a canonical memory (`Memory.store_whole`). -/
theorem initLeavesNothingOfThePriorState : Obligations.InitLeavesNothingOfThePriorState := by
  intro width refin refout poly initv xorout check s s' hw hs hs'
  have htable : s'.table.store 0 (buildTable poly.toNat width.toNat)
      = s.table.store 0 (buildTable poly.toNat width.toNat) := by
    rw [Memory.store_whole hs.memory (buildTable_length ..), Memory.store_whole hs'.memory (buildTable_length ..)]
  refine ⟨_, _, exec_init_of_legalWidth hw .., exec_init_of_legalWidth hw .., ?_⟩
  simp only [State.initialized, if_true, htable]
  rfl

/-! ## `UPDATE` (rules R79, R85) -/

/-- Bit `j` of the byte that enters the register, reversed if asked. -/
theorem inputByte_testBit (b : Byte) (refin : Bool) {j : Nat} (hj : j < 8) :
    (if refin then reflect b.toNat 8 else b.toNat).testBit j = b.getLsbD (if refin then 7 - j else j) := by
  cases refin
  · rfl
  · have hb : b.toNat < 2 ^ 32 := b.isLt.trans (by decide)
    rw [if_pos rfl, reflect_testBit hb, if_pos hj]
    rfl

/-- The state after a chunk: the register of the bitwise strategy, `Accumulating` unless the chunk is empty, and
these words in the response channel (rule R85). -/
def State.folded (s : State) (bytes : List Byte) (rsp : List Word) : State :=
  { s with
    reg := BitVec.ofNat 32 (bitwiseRegister s s.reg.toNat bytes)
    fsm := if bytes = [] then s.fsm else .accumulating
    rsp := rsp }

/-- `UPDATE` with a descriptor folds the chunk, in either mode, and answers the register. -/
theorem Inv.exec_update {s : State} (hs : Inv s) (hf : s.fsm ≠ .uninitialized) (bytes : List Byte) :
    exec (.update bytes) s = .next (s.folded bytes
      (s.rsp ++ [0x02000000#32, BitVec.ofNat 32 (bitwiseRegister s s.reg.toNat bytes)])) := by
  have hexec : exec (.update bytes) s = .next _ := execUpdate_of_foldBytes hf (hs.foldBytes_eq hf ..)
  simp only [List.isEmpty_iff] at hexec
  exact hexec

/-- Settles O17: `Inv.exec_update` is the first clause; a bit of `fold` is a bit of an exclusive-or with the
shifted byte, below the width. -/
theorem updateFoldsTheChunk : Obligations.UpdateFoldsTheChunk := by
  refine ⟨fun bytes s hs hf => hs.exec_update hf bytes,
    fun w r b refin hw hr => ⟨fun j hj => ?_, fun k hk => ?_, fun k hk => ?_⟩⟩
  · have hlt : w - 8 + j < w := by omega
    rw [fold, Nat.testBit_and, mask_testBit, Nat.testBit_xor, Nat.testBit_shiftLeft, Nat.add_sub_cancel_left,
      inputByte_testBit b refin hj]
    simp [hlt]
  · have hlt : k < w := by omega
    simp [fold, mask_testBit, hlt, Nat.not_le.2 hk]
  · rw [fold, Nat.testBit_and, mask_testBit, decide_eq_false (Nat.not_lt.2 hk), Bool.and_false]

/-! ## `RESET`, `FINALIZE` and `REFLECT` (rules R67, R69, R87, R90, R91) -/

/-- Settles O18: `RESET` with and without a descriptor. -/
theorem resetReloadsTheInitialValue : Obligations.ResetReloadsTheInitialValue :=
  fun _ => ⟨execReset_of_descriptor, exec_of_uninitialized (i := .reset) rfl⟩

/-- Bit by bit: reflected within the width if asked, then XORed, and no bit above the width. -/
theorem finalizeValue_testBit {r w xorout : Nat} (hw : w ≤ 32) (refout : Bool) (k : Nat) :
    (finalizeValue r w refout xorout).testBit k
      = (decide (k < w) && ((if refout then r.testBit (w - 1 - k) else r.testBit k) ^^ xorout.testBit k)) := by
  have hr : r &&& mask w < 2 ^ 32 := (and_mask_lt r w).trans_le (Nat.pow_le_pow_right (by decide) hw)
  by_cases hk : k < w
  · cases refout
    · simp [finalizeValue, mask_testBit, hk]
    · simp [finalizeValue, reflect_testBit hr, mask_testBit, hk, show w - 1 - k < w by omega]
  · simp [finalizeValue, mask_testBit, hk]

/-- Settles O19: the bits of the answer are those of `finalizeValue`, which fits a word. -/
theorem finalizeReflectsThenXors : Obligations.FinalizeReflectsThenXors := by
  intro s hs hf
  obtain ⟨-, hhi⟩ := legalWidth_bounds (hs.width hf)
  refine ⟨_, execFinalize_of_descriptor hf, fun k => ?_⟩
  rw [BitVec.getLsbD, toNat_ofNat_of_le_mask hhi (finalizeValue_le ..), finalizeValue_testBit hhi]
  rfl

/-- Settles O22: the bits of `reflect`, and the error of an illegal count. -/
theorem reflectReversesTheLowBits : Obligations.ReflectReversesTheLowBits := by
  refine fun n value s => ⟨fun hn => ⟨_, if_pos (decide_eq_true hn), fun k hk => ?_⟩, fun hn => ?_⟩
  · rw [BitVec.getLsbD_ofNat, decide_eq_true hk, Bool.true_and, reflect_testBit value.isLt]
    rfl
  · exact if_neg (Bool.eq_false_iff.1 (decide_eq_false (Nat.not_le.2 hn)))

end Sys2Proof.Machine
end

section
/-! Streams (rules R65, R86, R91, R92, R94, R96): chunks one after another, a stream after `FINALIZE`, the CRC of one
chunk, and the self-test as that CRC compared with `CHECK`. -/

namespace Sys2Proof.Machine

/-! ## Chunks one after another (rule R86) -/

theorem bitwiseRegister_append (s : State) (r : Nat) (as bs : List Byte) :
    bitwiseRegister s r (as ++ bs) = bitwiseRegister s (bitwiseRegister s r as) bs := List.foldl_append

section
variable {s : State} (hs : Inv s) (hf : s.fsm ≠ .uninitialized)
include hs hf

/-- The register of a chunk fits a word. -/
theorem Inv.toNat_bitwiseRegister {r : Nat} (hr : r ≤ mask s.width.toNat) (bytes : List Byte) :
    (BitVec.ofNat 32 (bitwiseRegister s r bytes)).toNat = bitwiseRegister s r bytes := by
  obtain ⟨-, hhi⟩ := legalWidth_bounds (hs.width hf)
  exact toNat_ofNat_of_le_mask hhi (foldBytes_le hr (hs.foldBytes_eq hf r bytes))

theorem Inv.folded (bytes : List Byte) (rsp : List Word) :
    Inv (s.folded bytes rsp) ∧ (s.folded bytes rsp).fsm ≠ .uninitialized := by
  have hexec := hs.exec_update hf bytes
  have hfsm := exec_fsm_ne_uninitialized hf hexec
  exact ⟨(exec_keeps_inv hs hexec).withPorts s.cmd rsp s.rst s.rspReady, hfsm⟩

/-- Two chunks leave what their concatenation leaves. -/
theorem Inv.folded_folded (as bs : List Byte) (rsp rsp' : List Word) :
    (s.folded as rsp).folded bs rsp' = s.folded (as ++ bs) rsp' := by
  obtain ⟨hreg, -, -, -⟩ := hs.masked hf
  have hfsm : (if bs = [] then if as = [] then s.fsm else .accumulating else .accumulating)
      = if as ++ bs = [] then s.fsm else .accumulating := by
    cases as <;> cases bs <;> rfl
  rw [State.folded, State.folded, State.folded, hs.toNat_bitwiseRegister hf hreg, bitwiseRegister_append, ← hfsm]
  rfl

end

/-- The `UPDATE`s of a list of chunks leave the state of their concatenation, but for the answers on the way. -/
theorem Inv.execAll_updates {s : State} (hs : Inv s) (hf : s.fsm ≠ .uninitialized) (chunks : List (List Byte)) :
    ∃ rsp, execAll (chunks.map Instr.update) s = .next (s.folded chunks.flatten rsp) := by
  induction chunks generalizing s with
  | nil =>
    refine ⟨s.rsp, congrArg Host.Outcome.next ?_⟩
    rw [List.flatten_nil, State.folded, bitwiseRegister, List.foldl_nil, BitVec.ofNat_toNat, BitVec.setWidth_eq,
      if_pos rfl]
  | cons chunk chunks ih =>
    obtain ⟨hs', hf'⟩ := hs.folded hf chunk
      (s.rsp ++ [0x02000000#32, BitVec.ofNat 32 (bitwiseRegister s s.reg.toNat chunk)])
    obtain ⟨rsp, hrest⟩ := ih hs' hf'
    refine ⟨rsp, ?_⟩
    rw [List.map_cons, execAll_cons_of_next (hs.exec_update hf chunk), hrest, hs.folded_folded hf,
      List.flatten_cons]

/-- Settles O36: both runs leave `State.folded` of the whole stream. -/
theorem chunkingDoesNotChangeTheStream : Obligations.ChunkingDoesNotChangeTheStream := by
  intro chunks s hs hf
  obtain ⟨rsp, hall⟩ := hs.execAll_updates hf chunks
  exact ⟨_, _, hall, hs.exec_update hf chunks.flatten, rfl⟩

/-! ## After `FINALIZE` (rules R91, R92) -/

/-- Settles O38: `FINALIZE` writes only `FSM` and the response channel, so the register is there for a second
one and for an `UPDATE`. -/
theorem finalizeDoesNotEndTheStream : Obligations.FinalizeDoesNotEndTheStream := by
  intro bytes s t hs hf h
  have hs' := exec_keeps_inv hs h
  obtain ⟨hu, -⟩ | ⟨-, rfl⟩ := execFinalize_eq_next h
  · exact absurd hu hf
  refine ⟨⟨_, rfl, execFinalize_of_descriptor nofun⟩, _, _, hs'.exec_update nofun bytes, hs.exec_update hf bytes,
    rfl, fun hb => ?_⟩
  rw [State.folded, State.folded, if_neg hb, if_neg hb]
  rfl

/-! ## The CRC of a chunk (rules R65, R86) -/

/-- The value `FINALIZE` answers for a chunk from the initial value. -/
def crcValue (s : State) (chunk : List Byte) : Word :=
  BitVec.ofNat 32 (finalizeValue (bitwiseRegister s s.initv.toNat chunk) s.width.toNat s.refout s.xorout.toNat)

/-- `CRC chunk` leaves the register of the chunk from the initial value, and its last answer is the CRC. -/
theorem Inv.execAll_crcCommands {s : State} (hs : Inv s) (hf : s.fsm ≠ .uninitialized) (chunk : List Byte) :
    ∃ answers, execAll (crcCommands chunk) s = .next { s with
      reg := BitVec.ofNat 32 (bitwiseRegister s s.initv.toNat chunk)
      fsm := .finalized
      rsp := s.rsp ++ answers ++ [0x04000000#32, crcValue s chunk] } := by
  obtain ⟨-, -, hinitv, -⟩ := hs.masked hf
  have hvalue : crcValue s chunk = BitVec.ofNat 32
      (finalizeValue (BitVec.ofNat 32 (bitwiseRegister s s.initv.toNat chunk)).toNat s.width.toNat s.refout
        s.xorout.toNat) := by
    rw [hs.toNat_bitwiseRegister hf hinitv, crcValue]
  have hreset : exec .reset s = .next _ := execReset_of_descriptor hf
  have hupdate := (exec_keeps_inv hs hreset).exec_update nofun chunk
  have hf' := exec_fsm_ne_uninitialized (by nofun) hupdate
  refine ⟨[0x03000000#32, s.initv] ++ [0x02000000#32, BitVec.ofNat 32 (bitwiseRegister s s.initv.toNat chunk)], ?_⟩
  rw [crcCommands, execAll_cons_of_next hreset, execAll_cons_of_next hupdate, execAll_finalize hf', hvalue,
    ← List.append_assoc s.rsp]
  rfl

/-- Settles O39: the last answer is the CRC of the chunk. -/
theorem crcOfAChunkDependsOnDescriptorAndBytes : Obligations.CrcOfAChunkDependsOnDescriptorAndBytes := by
  intro chunk s hs hf
  obtain ⟨answers, hall⟩ := hs.execAll_crcCommands hf chunk
  exact ⟨_, answers, hall, rfl⟩

/-! ## The self-test (rules R94, R96) -/

/-- `SELFTEST` leaves what `CRC "123456789"` leaves, and answers whether the CRC is `CHECK`. -/
theorem Inv.exec_selftest {s : State} (hs : Inv s) (hf : s.fsm ≠ .uninitialized) :
    exec .selftest s = .next { s with
      reg := BitVec.ofNat 32 (bitwiseRegister s s.initv.toNat testVector)
      fsm := .finalized
      rsp := s.rsp ++ [0x05000000#32, if crcValue s testVector = s.check then 1#32 else 0#32] } := by
  have hexec : exec .selftest s = .next _ := execSelftest_of_foldBytes hf (hs.foldBytes_eq hf ..)
  simp only [boolWord, beq_iff_eq] at hexec
  exact hexec

/-- Settles O20: both runs are known (`Inv.execAll_crcCommands`, `Inv.exec_selftest`), and the second `SELFTEST`
starts from the same descriptor. -/
theorem selftestIsResetUpdateFinalizeCompare : Obligations.SelftestIsResetUpdateFinalizeCompare := by
  intro s hs hf
  have hself := hs.exec_selftest hf
  have hagain := (exec_keeps_inv hs hself).exec_selftest nofun
  obtain ⟨answers, hall⟩ := hs.execAll_crcCommands hf testVector
  exact ⟨_, _, _, answers, _, hself, hall, rfl, rfl, hagain, rfl⟩

/-- `SELFTEST` passes if the CRC of the test vector is `CHECK`. -/
theorem Inv.selftest_passes {s : State} (hs : Inv s) (hf : s.fsm ≠ .uninitialized)
    (hvalue : crcValue s testVector = s.check) :
    ∃ t, exec .selftest s = .next t ∧ t.rsp = s.rsp ++ [0x05000000#32, 1#32] := by
  rw [hs.exec_selftest hf, if_pos hvalue]
  exact ⟨_, rfl, rfl⟩

/-- After a fresh `INIT` in either mode the self-test passes if the bitwise CRC of the new descriptor is `CHECK`. -/
theorem Inv.execAll_init_selftest {s : State} (hs : Inv s) {width : BitVec 8} (hw : legalWidth width = true)
    {refin refout : Bool} {poly initv xorout check : Word}
    (hvalue : crcValue (s.initialized width refin refout false poly initv xorout check) testVector = check)
    (tmode : Bool) :
    ∃ t, execAll [.init width refin refout tmode poly initv xorout check, .selftest] s = .next t ∧
      t.rsp = s.rsp ++ [0x01000000#32, 0x05000000#32, 1#32] := by
  have hs' := (hs.initialized hw refin refout tmode poly initv xorout check).emit [0x01000000#32]
  obtain ⟨t, hself, hrsp⟩ := hs'.selftest_passes nofun hvalue
  rw [execAll_init_cons hw, execAll_cons_of_next hself]
  exact ⟨t, rfl, hrsp.trans (List.append_assoc ..)⟩

/-- Settles O21: `Inv.execAll_init_selftest`, and the CRC of each row is computed. -/
theorem knownVectorsPassTheSelftest : Obligations.KnownVectorsPassTheSelftest := by
  intro tmode c hc
  simp only [List.mem_cons, List.not_mem_nil, or_false] at hc
  obtain rfl | rfl | rfl | rfl | rfl := hc <;>
    exact inv_reset.execAll_init_selftest (by decide) (by decide +kernel) tmode

end Sys2Proof.Machine
end
